-- ==== Sys2Proof/Word.lean ====
section
/-! DEFINITION. The machine word and the output byte (00_scope.md R6, R8). -/

namespace Sys2Proof

/-- WORD, the one unit of registers, memory and instructions: 32 bits, read as an unsigned natural
wherever a rule asks for a number (R6, R8). -/
abbrev Word := BitVec 32

/-- One byte 0..255 of the input or output stream (R192, R193). -/
abbrev Byte := BitVec 8

end Sys2Proof
end

