-- ==== Sys2Proof/Syntax.lean ====
section
/-! DEFINITION. The fourteen instructions, as the decoder hands them to the machine (30_encoding.md R95,
R96), and their names and opcodes (R94, R104). -/

namespace Sys2Proof

/-- The number of a general register: a 3-bit field, so always in 0..7 (R22, R99). -/
abbrev Reg := Fin 8

/-- A decoded instruction. Each shape carries only the fields its operation uses, in the order A, B, C
(R95, R96; log 14): a field that is not populated does not exist, so no rule can read it. -/
inductive Instr where
  /-- `cmov rA, rB, rC`, opcode 0 (R140). -/
  | conditionalMove (a b c : Reg)
  /-- `sload rA, rB, rC`, opcode 1 (R150). -/
  | segmentedLoad (a b c : Reg)
  /-- `sstore rA, rB, rC`, opcode 2 (R151). -/
  | segmentedStore (a b c : Reg)
  /-- `add rA, rB, rC`, opcode 3 (R160). -/
  | add (a b c : Reg)
  /-- `mul rA, rB, rC`, opcode 4 (R161). -/
  | multiply (a b c : Reg)
  /-- `div rA, rB, rC`, opcode 5 (R162). -/
  | divide (a b c : Reg)
  /-- `nand rA, rB, rC`, opcode 6 (R163). -/
  | nand (a b c : Reg)
  /-- `halt`, opcode 7 (R170). -/
  | halt
  /-- `map rB, rC`, opcode 8 (R180). -/
  | mapSegment (b c : Reg)
  /-- `unmap rC`, opcode 9 (R181). -/
  | unmapSegment (c : Reg)
  /-- `out rC`, opcode 10 (R190). -/
  | output (c : Reg)
  /-- `in rC`, opcode 11 (R191). -/
  | input (c : Reg)
  /-- `loadp rB, rC`, opcode 12 (R171). -/
  | loadProgram (b c : Reg)
  /-- `lv rA, imm`, opcode 13 (R141): A2 and the 25-bit unsigned immediate (R92, R98). -/
  | loadValue (a2 : Reg) (imm : BitVec 25)
  deriving DecidableEq, Repr

/-- The opcode of each instruction (R94): the row order of the source's table, first row 0 (the spec's
D1; log 1). -/
def Instr.opcode : Instr → Nat
  | .conditionalMove _ _ _ => 0
  | .segmentedLoad _ _ _ => 1
  | .segmentedStore _ _ _ => 2
  | .add _ _ _ => 3
  | .multiply _ _ _ => 4
  | .divide _ _ _ => 5
  | .nand _ _ _ => 6
  | .halt => 7
  | .mapSegment _ _ => 8
  | .unmapSegment _ => 9
  | .output _ => 10
  | .input _ => 11
  | .loadProgram _ _ => 12
  | .loadValue _ _ => 13

/-- The mnemonics of the assembler syntax (R104, the spec's D18), one per operation. -/
inductive Mnemonic where
  | cmov | sload | sstore | add | mul | div | nand | halt | map | unmap | out | inp | loadp | lv
  deriving DecidableEq, Repr

/-- One line of the assembler syntax with its numbers as written, before any check (R104, R105): a
mnemonic with its register numbers in field order, and an immediate where one is written, or the
directive `.word v`. -/
inductive Line where
  | op (name : Mnemonic) (regs : List Nat) (imm : Option Nat)
  | word (v : Nat)
  deriving DecidableEq, Repr

end Sys2Proof
end

