-- ==== Sys2Proof/WellFormed.lean ====
section
/-! DEFINITION. Which assembler lines are well formed, the instruction such a line names, and the line of
an instruction (30_encoding.md R104, R105; log 18). An `Instr` itself has no ill-formed term: its
register numbers are in 0..7 and its immediate has 25 bits by their types. -/

namespace Sys2Proof

/-- How many register operands a mnemonic takes: the fields its operation uses (R94, R104). -/
def Mnemonic.arity : Mnemonic → Nat
  | .cmov | .sload | .sstore | .add | .mul | .div | .nand => 3
  | .map | .loadp => 2
  | .unmap | .out | .inp | .lv => 1
  | .halt => 0

/-- An immediate is written for `lv` and for nothing else, and "must" be at most 0x1FFFFFF (R104). -/
def Mnemonic.immOk (m : Mnemonic) (imm : Option Nat) : Bool :=
  match m, imm with
  | .lv, some v => v ≤ 0x1FFFFFF
  | .lv, none => false
  | _, none => true
  | _, some _ => false

/-- What an assembler for the syntax accepts: the right number of operands, no register number above 7,
no immediate above 0x1FFFFFF (R104), and a 32-bit value after `.word` (R105). -/
def Line.wellFormed : Line → Bool
  | .op m regs imm => regs.length == m.arity && regs.all (· ≤ 7) && m.immOk imm
  | .word v => v < 2 ^ 32

/-- A register number that has passed the check, as a register. -/
def regOf (n : Nat) : Reg := Fin.ofNat 8 n

/-- The line that writes an instruction, operands in field order (R104). -/
def Instr.line : Instr → Line
  | .conditionalMove a b c => .op .cmov [a.val, b.val, c.val] none
  | .segmentedLoad a b c => .op .sload [a.val, b.val, c.val] none
  | .segmentedStore a b c => .op .sstore [a.val, b.val, c.val] none
  | .add a b c => .op .add [a.val, b.val, c.val] none
  | .multiply a b c => .op .mul [a.val, b.val, c.val] none
  | .divide a b c => .op .div [a.val, b.val, c.val] none
  | .nand a b c => .op .nand [a.val, b.val, c.val] none
  | .halt => .op .halt [] none
  | .mapSegment b c => .op .map [b.val, c.val] none
  | .unmapSegment c => .op .unmap [c.val] none
  | .output c => .op .out [c.val] none
  | .input c => .op .inp [c.val] none
  | .loadProgram b c => .op .loadp [b.val, c.val] none
  | .loadValue a2 imm => .op .lv [a2.val] (some imm.toNat)

/-- An instruction is well formed when an assembler accepts the line that writes it. -/
def Instr.wellFormed (i : Instr) : Bool := i.line.wellFormed

end Sys2Proof
end

