-- ==== Sys2Proof/Decode.lean ====
section
/-! DEFINITION. The instruction decoder, a total stateless function of one word (30_encoding.md R90 to
R102), then the encoder and the assembler written over the same encodings (R103 to R105). -/

namespace Sys2Proof

/-- What the decoder answers for a word that is no instruction: the invalid sentinel (R95, R100). -/
inductive DecodeReject where
  /-- The opcode field holds 14 or 15. -/
  | invalidOpcode
  deriving DecidableEq, Repr

/-- `op = w[31:28]` (R91, R92). -/
def opField (w : Word) : BitVec 4 := w.extractLsb' 28 4

/-- `A = w[8:6]` (R91). -/
def fieldA (w : Word) : Reg := (w.extractLsb' 6 3).toFin

/-- `B = w[5:3]` (R91). -/
def fieldB (w : Word) : Reg := (w.extractLsb' 3 3).toFin

/-- `C = w[2:0]` (R91). -/
def fieldC (w : Word) : Reg := (w.extractLsb' 0 3).toFin

/-- `A2 = w[27:25]` (R92). -/
def fieldA2 (w : Word) : Reg := (w.extractLsb' 25 3).toFin

/-- `imm = w[24:0]` (R92, R98). -/
def fieldImm (w : Word) : BitVec 25 := w.extractLsb' 0 25

/-- `decode` (R95): the format is chosen by the opcode alone (R93), every bit outside the fields an
operation uses is ignored (R97), and the opcodes 14 and 15 give the invalid sentinel (R100). -/
def decode (w : Word) : Except DecodeReject Instr :=
  match (opField w).toNat with
  | 0 => .ok (.conditionalMove (fieldA w) (fieldB w) (fieldC w))
  | 1 => .ok (.segmentedLoad (fieldA w) (fieldB w) (fieldC w))
  | 2 => .ok (.segmentedStore (fieldA w) (fieldB w) (fieldC w))
  | 3 => .ok (.add (fieldA w) (fieldB w) (fieldC w))
  | 4 => .ok (.multiply (fieldA w) (fieldB w) (fieldC w))
  | 5 => .ok (.divide (fieldA w) (fieldB w) (fieldC w))
  | 6 => .ok (.nand (fieldA w) (fieldB w) (fieldC w))
  | 7 => .ok .halt
  | 8 => .ok (.mapSegment (fieldB w) (fieldC w))
  | 9 => .ok (.unmapSegment (fieldC w))
  | 10 => .ok (.output (fieldC w))
  | 11 => .ok (.input (fieldC w))
  | 12 => .ok (.loadProgram (fieldB w) (fieldC w))
  | 13 => .ok (.loadValue (fieldA2 w) (fieldImm w))
  | _ => .error .invalidOpcode

/-- The word of a row of the opcode table: `w` cut to its `nbits` bits, the bits above them zero. -/
def tableWord (nbits w : Nat) : Word := BitVec.ofNat 32 (w % 2 ^ nbits)

/-- The instruction the decoder reads from `nbits` bits of the opcode table. Every instruction is one
32-bit word (R90), so more than 32 bits are no instruction. -/
def decodeTableWord (nbits w : Nat) : Option Instr :=
  if nbits ≤ 32 then (decode (tableWord nbits w)).toOption else none

/-- A register number as the word it contributes to an encoding. -/
def regBits (r : Reg) : Word := BitVec.ofNat 32 r.val

/-- `(k << 28) | (A << 6) | (B << 3) | C`: the canonical word of the three-register format, an unused
field counting as 0 (R103). -/
def encodeThree (k : Nat) (a b c : Reg) : Word :=
  (BitVec.ofNat 32 k <<< 28) ||| (regBits a <<< 6) ||| (regBits b <<< 3) ||| regBits c

/-- `(13 << 28) | (A2 << 25) | imm`: the word of LoadValue (R103). -/
def encodeImm (a2 : Reg) (imm : BitVec 25) : Word :=
  (13#32 <<< 28) ||| (regBits a2 <<< 25) ||| imm.setWidth 32

/-- The canonical encoder (R103, the spec's D6): every ignored bit is 0. -/
def encode : Instr → Word
  | .conditionalMove a b c => encodeThree 0 a b c
  | .segmentedLoad a b c => encodeThree 1 a b c
  | .segmentedStore a b c => encodeThree 2 a b c
  | .add a b c => encodeThree 3 a b c
  | .multiply a b c => encodeThree 4 a b c
  | .divide a b c => encodeThree 5 a b c
  | .nand a b c => encodeThree 6 a b c
  | .halt => encodeThree 7 0 0 0
  | .mapSegment b c => encodeThree 8 0 b c
  | .unmapSegment c => encodeThree 9 0 0 c
  | .output c => encodeThree 10 0 0 c
  | .input c => encodeThree 11 0 0 c
  | .loadProgram b c => encodeThree 12 0 b c
  | .loadValue a2 imm => encodeImm a2 imm

/-- The bits of a word that take part in decoding to an instruction: the opcode and the fields its operation
uses (R94, R97). Every other bit is ignored. -/
def usedBits : Instr → Word
  | .conditionalMove _ _ _ | .segmentedLoad _ _ _ | .segmentedStore _ _ _ | .add _ _ _ => 0xF00001FF#32
  | .multiply _ _ _ | .divide _ _ _ | .nand _ _ _ => 0xF00001FF#32
  | .halt => 0xF0000000#32
  | .mapSegment _ _ | .loadProgram _ _ => 0xF000003F#32
  | .unmapSegment _ | .output _ | .input _ => 0xF0000007#32
  | .loadValue _ _ => 0xFFFFFFFF#32

/-- The instruction a line's operands name, the numbers already checked; none for a count of operands the
mnemonic does not take (R104). -/
def instrOf : Mnemonic → List Nat → Option Nat → Option Instr
  | .cmov, [a, b, c], none => some (.conditionalMove (regOf a) (regOf b) (regOf c))
  | .sload, [a, b, c], none => some (.segmentedLoad (regOf a) (regOf b) (regOf c))
  | .sstore, [a, b, c], none => some (.segmentedStore (regOf a) (regOf b) (regOf c))
  | .add, [a, b, c], none => some (.add (regOf a) (regOf b) (regOf c))
  | .mul, [a, b, c], none => some (.multiply (regOf a) (regOf b) (regOf c))
  | .div, [a, b, c], none => some (.divide (regOf a) (regOf b) (regOf c))
  | .nand, [a, b, c], none => some (.nand (regOf a) (regOf b) (regOf c))
  | .halt, [], none => some .halt
  | .map, [b, c], none => some (.mapSegment (regOf b) (regOf c))
  | .unmap, [c], none => some (.unmapSegment (regOf c))
  | .out, [c], none => some (.output (regOf c))
  | .inp, [c], none => some (.input (regOf c))
  | .loadp, [b, c], none => some (.loadProgram (regOf b) (regOf c))
  | .lv, [a], some v => some (.loadValue (regOf a) (BitVec.ofNat 25 v))
  | _, _, _ => none

/-- The assembler of the syntax: it refuses an ill-formed line, and a line it accepts becomes one
canonical word (R104), or the value of a `.word` directive (R105). -/
def assemble (l : Line) : Option Word :=
  if l.wellFormed then
    match l with
    | .op m regs imm => (instrOf m regs imm).map encode
    | .word v => some (BitVec.ofNat 32 v)
  else none

end Sys2Proof
end

