-- ==== Sys2Proof/Machine/Assoc.lean ====
section
/-! DEFINITION. Partial maps with natural keys, held as lists of pairs in rising order of key: the form of
the identifier table and of a segment's words (log 6). -/

namespace Sys2Proof.Machine.Assoc

/-- The value at a key; none where the key is not listed. -/
def get {α : Type} (k : Nat) : List (Nat × α) → Option α
  | [] => none
  | (k', v) :: rest => if k = k' then some v else get k rest

/-- Binds a key, in its place, to a value. -/
def put {α : Type} (k : Nat) (v : α) : List (Nat × α) → List (Nat × α)
  | [] => [(k, v)]
  | (k', v') :: rest =>
    if k < k' then (k, v) :: (k', v') :: rest
    else if k = k' then (k, v) :: rest
    else (k', v') :: put k v rest

/-- Takes a key out. -/
def del {α : Type} (k : Nat) (m : List (Nat × α)) : List (Nat × α) :=
  m.filter fun p => p.1 ≠ k

/-- The keys are strictly rising: no key is listed twice, and equal maps are equal lists. -/
abbrev Sorted {α : Type} (m : List (Nat × α)) : Prop := m.Pairwise fun p q => p.1 < q.1

end Sys2Proof.Machine.Assoc
end

