-- ==== Sys2Proof/Config.lean ====
section
/-! DEFINITION. What is fixed for the machine, the defaults of the parameters the spec leaves to a launch
(00_scope.md R6, R7), and the answers of the outside world that nothing constrains (46_io.md R193). -/

namespace Sys2Proof

/-- One answer of the input collaborator: a byte, or end-of-stream told apart out of band (R193). -/
inductive Answer where
  | byte (b : Byte)
  | eof
  deriving DecidableEq, Repr, Inhabited

end Sys2Proof

namespace Sys2Proof.Config

/-- The offset in segment 0 of the first instruction (R242; DEDUCED by the spec's D2, log 9). -/
abbrev entryPoint : Word := 0#32

/-- Identifiers are the naturals below this bound (R28, D11): an identifier is handed out in a 32-bit
register. -/
abbrev identLimit : Nat := 2 ^ 32

/-- Every segment's length is below this bound (R29, D14). -/
abbrev lengthLimit : Nat := 2 ^ 32

/-- MEM_CAPACITY_WORDS where a launch names none: unbounded, the spec's default (R7, R70, D12; log 4,
unsafe for hardware with finite storage). -/
abbrev defaultCapacity : Option Nat := none

/-- FREE VALUES: answer number `n` of an arbitrary INPUT oracle, the oracles told apart by a number (R193: "any
sequence of answers the claim quantifies over"). It has no body, so nothing is known of an answer but its
type, and what is proved of it holds of every sequence (log 3). -/
opaque freeAnswer (oracle n : Nat) : Answer

end Sys2Proof.Config
end

