-- ==== Sys2Proof/Machine/State.lean ====
section
/-! DEFINITION. The state of the machine as plain data (10_state.md), the reasons a step stops, and the
state after reset (R38). -/

namespace Sys2Proof.Machine

/-- The five kinds of fault (R200). The spec's D15: an enumeration; the codes are labels only. -/
inductive FaultKind where
  /-- The fetched word has opcode 14 or 15 (R201). -/
  | decodeFault
  /-- An identifier is unmapped, or an offset is at or beyond the segment's length (R202). -/
  | outOfBounds
  /-- Divide with a divisor of 0 (R203). -/
  | divideByZero
  /-- UnmapSegment of identifier 0 or of an unmapped identifier (R204). -/
  | invalidDeallocation
  /-- Output of a value above 255 (R205; the spec's D8, log 10). -/
  | outputOutOfRange
  deriving DecidableEq, Repr

/-- The state of the fetch-execute state machine (R33, R121; the spec's D16). -/
inductive Status where
  | running
  | halted
  | faulted (kind : FaultKind)
  deriving DecidableEq, Repr

/-- What the INPUT oracle answers once its listed answers are used up (R193; log 3). -/
inductive Rest where
  /-- The same answer again and again: end-of-stream for a finite input (D9), a byte for one without end. -/
  | always (a : Answer)
  /-- Answers that nothing constrains but their type: those of the free oracle of that number
  (`Config.freeAnswer`). -/
  | free (oracle : Nat)
  deriving DecidableEq, Repr

/-- The INPUT oracle (R7, R193) as plain data: the answers listed, then the rest. Any sequence of answers
whatever is one with a free rest (log 3). -/
structure Oracle where
  listed : List Answer
  rest : Rest
  deriving DecidableEq, Repr

/-- A segment (R29): its length in words, and its words that are not the zero fill, as pairs of offset and
word in rising order of offset. The form is canonical (`Segment.wf`), so equal segments are equal
data (log 6). -/
structure Segment where
  len : Nat
  cells : List (Nat × Word)
  deriving DecidableEq, Repr

/-- The state of the memory segment indexer. -/
structure Memory where
  /-- The identifier table: identifier and segment of every mapped identifier, in rising order of
  identifier (R28). -/
  seg : List (Nat × Segment)
  /-- The reuse queue, the identifier freed earliest first (R30). -/
  free : List Nat
  /-- How many identifiers have ever been issued, identifier 0 among them (R31). -/
  nid : Nat
  deriving DecidableEq, Repr

/-- The whole state of the machine (R20), and the two parameters of a run that the spec gives the model as
arguments (R7). -/
structure State where
  /-- The register file: eight words (R21). -/
  x : Vector Word 8
  /-- The program counter, a word offset into segment 0 (R25). -/
  pc : Word
  /-- The memory segment indexer: `seg`, `free`, `nid` (R28, R30, R31). -/
  mem : Memory
  /-- Running, Halted or Faulted (R33). -/
  status : Status
  /-- The bytes emitted so far, the first emitted first (R36). -/
  out : List Byte
  /-- How many answers of the INPUT oracle have been consumed (R36). -/
  inpos : Nat
  /-- The MODEL'S own field: the INPUT oracle (R7, R193; log 3). No step changes it. -/
  input : Oracle
  /-- The MODEL'S own field: MEM_CAPACITY_WORDS (R7, R70), none for unbounded (log 4). No step changes
  it. -/
  capacity : Option Nat
  deriving DecidableEq, Repr

/-- Why a step gives no next state because the machine has stopped: "From `Halted` and `Faulted(kind)` there
is no step" (R121; log 7). A fault of the machine itself is no outcome of this type: it is a next state
whose status is Faulted (R206). -/
inductive Fault where
  /-- Raised by `step` alone, when the machine halted earlier. Safe: nothing is claimed of a further step. -/
  | alreadyHalted
  /-- Raised by `step` alone, when the machine faulted earlier. Safe: nothing is claimed of a further
  step. -/
  | alreadyFaulted (kind : FaultKind)
  deriving DecidableEq, Repr

/-- Why a step is given no meaning. -/
inductive Refusal where
  /-- Raised by `exec` for an instruction that has no meaning yet. Safe. -/
  | notModelled (mnemonic : String)
  /-- `Refused(ResourceExhausted)` (R70, D12): raised by MapSegment when no identifier below 2^32 is left or
  the capacity would be exceeded, and by LoadProgram when the capacity would be exceeded. Safe. -/
  | resourceExhausted
  deriving DecidableEq, Repr

/-- The machine right after reset (R38, R241) with an empty PROG, no input and the default capacity. A
program is an argument of reset: `State.boot` takes it (log 2). -/
def State.reset : State where
  x := Vector.replicate 8 0#32
  pc := Config.entryPoint
  mem := { seg := [(0, { len := 0, cells := [] })], free := [], nid := 1 }
  status := .running
  out := []
  inpos := 0
  input := { listed := [], rest := .always .eof }
  capacity := Config.defaultCapacity

end Sys2Proof.Machine
end

