-- ==== Sys2Proof/Machine/Operands.lean ====
section
/-! DEFINITION. Reads and writes of the registers (10_state.md R21 to R23), the values instructions form
from fields, bytes and identifiers (R98, R191, R180), and the pc updates (40_execution_loop.md R124). -/

namespace Sys2Proof.Machine

/-- `x[r]` (R22): total, since a register number is in 0..7; no register is hardwired (R21). -/
def State.reg (s : State) (r : Reg) : Word := s.x[r.val]

/-- `x[r] <- v` (R22): all 32 bits are replaced. -/
def State.setReg (s : State) (r : Reg) (v : Word) : State := { s with x := s.x.set r.val v }

/-- `pc <- t` (R25): any 32-bit offset is a legal pc value (R61). -/
def State.setPc (s : State) (t : Word) : State := { s with pc := t }

/-- `pc <- pc + 1`, in 32 bits (R124). At pc = 2^32 - 1 it wraps, which no run reaches (R26; log 13). -/
def State.advance (s : State) : State := s.setPc (s.pc + 1)

/-- `zext_32(imm)` (R98, R141): the bits above the immediate's 25 are 0. -/
def immWord (imm : BitVec 25) : Word := imm.setWidth 32

/-- The register value of an input answer (R191): a byte zero-extended, end-of-stream as 0xFFFFFFFF (the
spec's D9; log 11). -/
def answerWord : Answer → Word
  | .byte b => b.setWidth 32
  | .eof => 0xFFFFFFFF#32

/-- An identifier as the 32-bit value MapSegment writes (R180); identifiers are below 2^32 (R28). -/
def identWord (id : Nat) : Word := BitVec.ofNat 32 id

end Sys2Proof.Machine
end

