-- ==== Sys2Proof/Machine/Ops.lean ====
section
/-! DEFINITION. The shared operations: the five of the memory segment indexer (20_memory.md R52 to R56),
the arithmetic/logic unit (43_arithmetic_logic.md R160 to R163), the two byte interfaces (46_io.md R192,
R193), taking a fault (60_exceptions.md R206), and fetch with decode (40_execution_loop.md R122, R123). -/

namespace Sys2Proof.Machine

/-- Why an operation gives no result: it raises a fault of the machine (R200), or it is refused (R70). -/
inductive Stop where
  | raised (kind : FaultKind)
  | refused (reason : Refusal)
  deriving DecidableEq, Repr

/-- `raise K` (R206): the status becomes Faulted(K) and nothing else changes. No register is saved, there is
no vector and no return (R206, R212); `status` and `pc` after it are the spec's D16 and D5 (logs 7, 8). -/
def State.raise (s : State) (k : FaultKind) : State := { s with status := .faulted k }

/-- `halt` (R170): the status becomes Halted and nothing else changes. -/
def State.halt (s : State) : State := { s with status := .halted }

/-- Puts the memory an operation answered in place of the old one. -/
def State.setMem (s : State) (m : Memory) : State := { s with mem := m }

/-- Runs the rest of an instruction on an operation's result. An operation that raises ends the step with
the fault taken from the state the step began in, so the step is all-or-nothing (R126). -/
def State.attempt {α : Type} (s : State) (r : Except Stop α)
    (rest : α → Host.Outcome State Fault Refusal) : Host.Outcome State Fault Refusal :=
  match r with
  | .ok v => rest v
  | .error (.raised k) => .next (s.raise k)
  | .error (.refused q) => .refused q

/-! ### Segments -/

/-- What a word of a mapped segment reads as until it is written (R54, R58): zero. The one definition of what
an unlisted offset holds. -/
def zeroFill : Word := 0#32

/-- `seg[id][off]`, for an offset below the length. -/
def Segment.word (g : Segment) (off : Nat) : Word := (Assoc.get off g.cells).getD zeroFill

/-- `seg[id][off] <- v`: one word changes and the length does not (R53). Writing the zero fill takes the
entry out, which keeps the canonical form. -/
def Segment.setWord (g : Segment) (off : Nat) (v : Word) : Segment :=
  { g with cells := if v = zeroFill then Assoc.del off g.cells else Assoc.put off v g.cells }

/-- "a segment of n words, every word 0" (R54). -/
def Segment.zeros (n : Nat) : Segment := { len := n, cells := [] }

/-- The cells of a sequence of words whose first stands at offset `off`. -/
def cellsFrom (off : Nat) : List Word → List (Nat × Word)
  | [] => []
  | w :: ws => if w = zeroFill then cellsFrom (off + 1) ws else (off, w) :: cellsFrom (off + 1) ws

/-- The segment that holds a sequence of words, word for word (R38). -/
def Segment.ofWords (ws : List Word) : Segment := { len := ws.length, cells := cellsFrom 0 ws }

/-- The words of a segment in order of offset (R29). -/
def Segment.toWords (g : Segment) : List Word := (List.range g.len).map g.word

/-- The canonical form of a segment: offsets strictly rising and below the length, no entry equal to the zero
fill, and a length that fits in 32 bits (R29). -/
abbrev Segment.wf (g : Segment) : Prop :=
  g.len < Config.lengthLimit ∧ Assoc.Sorted g.cells ∧ ∀ p ∈ g.cells, p.1 < g.len ∧ p.2 ≠ zeroFill

/-! ### The memory segment indexer -/

/-- The segment of an identifier; none when it is unmapped (R28). -/
def Memory.segment (m : Memory) (id : Nat) : Option Segment := Assoc.get id m.seg

/-- `mapped(id)` (R28). -/
def Memory.mapped (m : Memory) (id : Nat) : Bool := (m.segment id).isSome

/-- `len(id)` (R28); none when the identifier is unmapped. -/
def Memory.len (m : Memory) (id : Nat) : Option Nat := (m.segment id).map Segment.len

/-- The words of segment storage in use: the lengths of all mapped segments together (R70). -/
def Memory.words (m : Memory) : Nat := (m.seg.map fun p => p.2.len).sum

/-- The canonical form of memory: identifiers strictly rising, every segment canonical. -/
abbrev Memory.wf (m : Memory) : Prop := Assoc.Sorted m.seg ∧ ∀ p ∈ m.seg, p.2.wf

/-- Whether so many words fit a capacity (R70, D12). -/
def fits (capacity : Option Nat) (words : Nat) : Bool :=
  match capacity with
  | none => true
  | some c => words ≤ c

/-- Accepts a memory that fits the capacity, and refuses one that does not (R70; log 5). -/
def Memory.within (capacity : Option Nat) (m : Memory) : Except Stop Memory :=
  if fits capacity m.words then .ok m else .error (.refused .resourceExhausted)

/-- `MemRead(id, off)` (R52). -/
def Memory.read (m : Memory) (id off : Word) : Except Stop Word :=
  match m.segment id.toNat with
  | none => .error (.raised .outOfBounds)
  | some g => if off.toNat < g.len then .ok (g.word off.toNat) else .error (.raised .outOfBounds)

/-- `MemWrite(id, off, v)` (R53). Identifier 0 is allowed: it changes the program text (R68). -/
def Memory.write (m : Memory) (id off v : Word) : Except Stop Memory :=
  match m.segment id.toNat with
  | none => .error (.raised .outOfBounds)
  | some g =>
    if off.toNat < g.len then
      .ok { m with seg := Assoc.put id.toNat (g.setWord off.toNat v) m.seg }
    else .error (.raised .outOfBounds)

/-- The identifier selection policy of R54, with the reuse queue and `nid` after it: the identifier freed
earliest if any is queued (R57), else one past the current maximum; none when that would not fit 32 bits
(R70). -/
def Memory.pick (m : Memory) : Option (Nat × List Nat × Nat) :=
  match m.free with
  | id :: rest => some (id, rest, m.nid)
  | [] => if m.nid < Config.identLimit then some (m.nid, [], m.nid + 1) else none

/-- `Allocate(n)` (R54): binds the selected identifier to a new segment of n words, every word 0, and answers
the identifier. Refused when no identifier is left or the capacity would be exceeded (R70). -/
def Memory.allocate (m : Memory) (capacity : Option Nat) (n : Word) : Except Stop (Nat × Memory) :=
  match m.pick with
  | none => .error (.refused .resourceExhausted)
  | some (id, free, nid) =>
    (Memory.within capacity
      { seg := Assoc.put id (Segment.zeros n.toNat) m.seg, free := free, nid := nid }).map fun m' => (id, m')

/-- `Deallocate(id)` (R55): the identifier goes to the tail of the reuse queue. -/
def Memory.deallocate (m : Memory) (id : Word) : Except Stop Memory :=
  if id = 0#32 then .error (.raised .invalidDeallocation)
  else if m.mapped id.toNat then
    .ok { m with seg := Assoc.del id.toNat m.seg, free := m.free ++ [id.toNat] }
  else .error (.raised .invalidDeallocation)

/-- `DuplicateIntoZero(src)` (R56): nothing for src = 0, else segment 0 is replaced by a copy of segment
`src`. Refused when the capacity would be exceeded (R70). -/
def Memory.duplicateIntoZero (m : Memory) (capacity : Option Nat) (src : Word) : Except Stop Memory :=
  match m.segment src.toNat with
  | none => .error (.raised .outOfBounds)
  | some g =>
    if src = 0#32 then .ok m
    else Memory.within capacity { m with seg := Assoc.put 0 g m.seg }

/-- Puts one word at an offset of segment 0 from outside the machine, lengthening the segment where it must:
what the external loader does for `State.withFetchWord` (log 15). No step calls it. -/
def Memory.placeWord (m : Memory) (off : Nat) (w : Word) : Memory :=
  let g := (m.segment 0).getD (Segment.zeros 0)
  { m with seg := Assoc.put 0 ({ g with len := max g.len (off + 1) }.setWord off w) m.seg }

/-! ### The arithmetic/logic unit -/

/-- `(a + b) mod 2^32` (R160, R164). -/
def aluAdd (a b : Word) : Word := a + b

/-- `(a * b) mod 2^32`: the low 32 bits of the product (R161, R164). -/
def aluMultiply (a b : Word) : Word := a * b

/-- `n div d` on unsigned values; DivideByZero for every dividend when d = 0 (R162, R166). -/
def aluDivide (n d : Word) : Except Stop Word :=
  if d = 0#32 then .error (.raised .divideByZero) else .ok (n / d)

/-- `~(a & b)` over exactly 32 bits (R163). -/
def aluNand (a b : Word) : Word := ~~~(a &&& b)

/-! ### The byte interfaces -/

/-- The byte an Output emits: a value above 255 is OutputOutOfRange, never truncated (R190, the spec's D8;
log 10). -/
def outputByte (v : Word) : Except Stop Byte :=
  if 255 < v.toNat then .error (.raised .outputOutOfRange) else .ok (v.setWidth 8)

/-- `OutByte(b)` (R192): appended to the history, so program order is kept (R194). -/
def State.emit (s : State) (b : Byte) : State := { s with out := s.out ++ [b] }

/-- Answer number `n` once the listed answers are used up. -/
def Rest.answer (r : Rest) (n : Nat) : Answer :=
  match r with
  | .always a => a
  | .free k => Config.freeAnswer k n

/-- Answer number `n` of an INPUT oracle (R193). -/
def Oracle.answer (o : Oracle) (n : Nat) : Answer := (o.listed[n]?).getD (o.rest.answer n)

/-- "a finite list of bytes followed by end-of-stream for ever" (R193; the spec's D9). -/
def Oracle.finite (bytes : List Byte) : Oracle := { listed := bytes.map .byte, rest := .always .eof }

/-- The answer number `inpos` of the INPUT oracle (R193). -/
def State.answer (s : State) : Answer := s.input.answer s.inpos

/-- The answer just given is consumed for good: `inpos <- inpos + 1` (R191, R193). -/
def State.consume (s : State) : State := { s with inpos := s.inpos + 1 }

/-! ### Fetch and decode -/

/-- The fetch: `MemRead(0, pc)`, with the checks and the fault of a data read (R71, R122). -/
def State.fetch (s : State) : Except Stop Word := s.mem.read 0#32 s.pc

/-- Fetch, then decode; the invalid sentinel is a DecodeFault (R123, R201). The order of the two checks is
that of R210. -/
def State.fetchInstr (s : State) : Except Stop Instr :=
  match s.fetch with
  | .error e => .error e
  | .ok w =>
    match decode w with
    | .ok i => .ok i
    | .error .invalidOpcode => .error (.raised .decodeFault)

/-- Why there is no step from a state: its status is terminal (R121); none while Running. -/
def State.stopped (s : State) : Option Fault :=
  match s.status with
  | .running => none
  | .halted => some .alreadyHalted
  | .faulted k => some (.alreadyFaulted k)

end Sys2Proof.Machine
end

