-- ==== Sys2Proof/Machine/Boot.lean ====
section
/-! DEFINITION. Reset with its argument: the construction of the machine from PROG (70_reset_and_hazards.md
R240 to R244, R247; 10_state.md R38). -/

namespace Sys2Proof.Machine

/-- The machine constructed from PROG, "word for word" as segment 0 (R38, R244), with the INPUT oracle and the
capacity of the run (R7). An empty PROG is accepted, and no word value is rejected (R244); a PROG longer
than 2^32 - 1 words is not admitted (R244, the spec's D14), so there is no machine. DESIGN CHOICE (log 20,
unsafe): the spec does not say what construction does with a PROG longer than a finite capacity; the model
admits it, and then refuses each MapSegment and each copying LoadProgram that would leave more words in use
than the capacity, a MapSegment of length 0 among them. -/
def State.boot (prog : List Word) (input : Oracle) (capacity : Option Nat) : Option State :=
  if prog.length < Config.lengthLimit then
    some { State.reset with
      mem := { State.reset.mem with seg := [(0, Segment.ofWords prog)] }
      input := input
      capacity := capacity }
  else none

end Sys2Proof.Machine
end

