-- ==== Sys2Proof/Machine/Arithmetic.lean ====
section
/-! DEFINITION. The arithmetic/logic instructions: Add, Multiply, Divide, Nand (43_arithmetic_logic.md). -/

namespace Sys2Proof.Machine

/-- Add (R160): the carry is discarded and recorded nowhere. -/
def execAdd (a b c : Reg) (s : State) : Host.Outcome State Fault Refusal :=
  .next (s.setReg a (aluAdd (s.reg b) (s.reg c))).advance

/-- Multiply (R161): the high 32 bits of the product are discarded. -/
def execMultiply (a b c : Reg) (s : State) : Host.Outcome State Fault Refusal :=
  .next (s.setReg a (aluMultiply (s.reg b) (s.reg c))).advance

/-- Divide (R162): raises DivideByZero when x[C] = 0. -/
def execDivide (a b c : Reg) (s : State) : Host.Outcome State Fault Refusal :=
  s.attempt (aluDivide (s.reg b) (s.reg c)) fun q => .next (s.setReg a q).advance

/-- Nand (R163). -/
def execNand (a b c : Reg) (s : State) : Host.Outcome State Fault Refusal :=
  .next (s.setReg a (aluNand (s.reg b) (s.reg c))).advance

end Sys2Proof.Machine
end

