-- ==== Sys2Proof/Machine/Control.lean ====
section
/-! DEFINITION. Control transfer: Halt and LoadProgram (44_control.md). -/

namespace Sys2Proof.Machine

/-- Halt (R170): the status becomes Halted; the pc stays at the Halt word (the spec's D4; log 8). -/
def execHalt (s : State) : Host.Outcome State Fault Refusal := .next s.halt

/-- LoadProgram (R171): segment 0 becomes a copy of segment x[B] unless x[B] = 0, and pc := x[C], a target
that is not checked before the next fetch. -/
def execLoadProgram (b c : Reg) (s : State) : Host.Outcome State Fault Refusal :=
  s.attempt (s.mem.duplicateIntoZero s.capacity (s.reg b)) fun m =>
    .next ((s.setMem m).setPc (s.reg c))

end Sys2Proof.Machine
end

