-- ==== Sys2Proof/Machine/InputOutput.lean ====
section
/-! DEFINITION. Input and output: Output and Input (46_io.md). -/

namespace Sys2Proof.Machine

/-- Output (R190): OutputOutOfRange for a value above 255, and then nothing is emitted. -/
def execOutput (c : Reg) (s : State) : Host.Outcome State Fault Refusal :=
  s.attempt (outputByte (s.reg c)) fun b => .next (s.emit b).advance

/-- Input (R191): a data byte, newline included (R196), or 0xFFFFFFFF at end-of-stream. -/
def execInput (c : Reg) (s : State) : Host.Outcome State Fault Refusal :=
  .next (s.consume.setReg c (answerWord s.answer)).advance

end Sys2Proof.Machine
end

