-- ==== Sys2Proof/Machine/Flags.lean ====
section
/-! DEFINITION. Conditions. The machine has no flags, condition codes or predicates (10_state.md R27); its
one condition is ConditionalMove's zero test (43_arithmetic_logic.md R168). -/

namespace Sys2Proof.Machine

/-- `x[C] != 0` (R140, R168): all 32 bits are tested, and only the zero word fails. -/
def conditionHolds (c : Word) : Bool := c != 0#32

end Sys2Proof.Machine
end

