-- ==== Sys2Proof/Machine/Move.lean ====
section
/-! DEFINITION. Register moves: ConditionalMove and LoadValue (41_move.md). -/

namespace Sys2Proof.Machine

/-- ConditionalMove (R140): when the condition fails nothing is written, not even the old value. -/
def execConditionalMove (a b c : Reg) (s : State) : Host.Outcome State Fault Refusal :=
  .next (if conditionHolds (s.reg c) then (s.setReg a (s.reg b)).advance else s.advance)

/-- LoadValue (R141). -/
def execLoadValue (a2 : Reg) (imm : BitVec 25) (s : State) : Host.Outcome State Fault Refusal :=
  .next (s.setReg a2 (immWord imm)).advance

end Sys2Proof.Machine
end

