-- ==== Sys2Proof/Machine/SegmentAccess.lean ====
section
/-! DEFINITION. Loads and stores: SegmentedLoad and SegmentedStore (42_segment_access.md). -/

namespace Sys2Proof.Machine

/-- SegmentedLoad (R150): x[B] is the identifier, x[C] the offset. -/
def execSegmentedLoad (a b c : Reg) (s : State) : Host.Outcome State Fault Refusal :=
  s.attempt (s.mem.read (s.reg b) (s.reg c)) fun v => .next (s.setReg a v).advance

/-- SegmentedStore (R151): x[A] is the identifier, x[B] the offset, x[C] the value. -/
def execSegmentedStore (a b c : Reg) (s : State) : Host.Outcome State Fault Refusal :=
  s.attempt (s.mem.write (s.reg a) (s.reg b) (s.reg c)) fun m => .next (s.setMem m).advance

end Sys2Proof.Machine
end

