-- ==== Sys2Proof/Machine/SegmentManagement.lean ====
section
/-! DEFINITION. Segment management: MapSegment and UnmapSegment (45_segment_management.md). -/

namespace Sys2Proof.Machine

/-- MapSegment (R180): the length x[C] is read before x[B] receives the identifier. -/
def execMapSegment (b c : Reg) (s : State) : Host.Outcome State Fault Refusal :=
  s.attempt (s.mem.allocate s.capacity (s.reg c)) fun r =>
    .next ((s.setMem r.2).setReg b (identWord r.1)).advance

/-- UnmapSegment (R181): no register is written, so x[C] still holds the stale identifier. -/
def execUnmapSegment (c : Reg) (s : State) : Host.Outcome State Fault Refusal :=
  s.attempt (s.mem.deallocate (s.reg c)) fun m => .next (s.setMem m).advance

end Sys2Proof.Machine
end

