-- ==== Sys2Proof/Machine/Dispatch.lean ====
section
/-! DEFINITION. The dispatch of the execute step: exactly one instruction rule per shape
(40_execution_loop.md R125). -/

namespace Sys2Proof.Machine

def exec (i : Instr) (s : State) : Host.Outcome State Fault Refusal :=
  match i with
  | .conditionalMove a b c => Sys2Proof.Machine.execConditionalMove a b c s
  | .segmentedLoad a b c => Sys2Proof.Machine.execSegmentedLoad a b c s
  | .segmentedStore a b c => Sys2Proof.Machine.execSegmentedStore a b c s
  | .add a b c => Sys2Proof.Machine.execAdd a b c s
  | .multiply a b c => Sys2Proof.Machine.execMultiply a b c s
  | .divide a b c => Sys2Proof.Machine.execDivide a b c s
  | .nand a b c => Sys2Proof.Machine.execNand a b c s
  | .halt => Sys2Proof.Machine.execHalt s
  | .mapSegment b c => Sys2Proof.Machine.execMapSegment b c s
  | .unmapSegment c => Sys2Proof.Machine.execUnmapSegment c s
  | .output c => Sys2Proof.Machine.execOutput c s
  | .input c => Sys2Proof.Machine.execInput c s
  | .loadProgram b c => Sys2Proof.Machine.execLoadProgram b c s
  | .loadValue a2 imm => Sys2Proof.Machine.execLoadValue a2 imm s

end Sys2Proof.Machine
end

