-- ==== Sys2Proof/Machine/Step.lean ====
section
/-! DEFINITION. One step of the machine (40_execution_loop.md R120 to R126), and the placing of one
instruction where the next step fetches it. -/

namespace Sys2Proof.Machine

/-- One whole iteration of the loop: fetch, decode, execute (R122, R123, R125). There is no step once the
machine has halted or faulted (R121; log 7). -/
def step (s : State) : Host.Outcome State Fault Refusal :=
  match s.stopped with
  | some f => .fault f
  | none => s.attempt s.fetchInstr fun i => exec i s

/-- The state with one instruction word in segment 0 at the pc, the segment lengthened to hold it, and the
status Running, so that the very next step fetches and runs it (log 15). -/
def State.withFetchWord (s : State) (nbits w : Nat) : State :=
  { s with mem := s.mem.placeWord s.pc.toNat (tableWord nbits w), status := .running }

end Sys2Proof.Machine
end

