-- ==== Sys2Proof/Safety.lean ====
section
/-! DEFINITION. The invariants of the machine's state (10_state.md R32), and what counts as the end of a run
and as a successful one (40_execution_loop.md R128, R129), in the terms claims use. -/

namespace Sys2Proof.Machine

/-- The memory invariants of R32, and the canonical form: identifier 0 is mapped (1), no queued identifier is
mapped (2, so 0 is never queued), none is queued twice (4), the identifiers below `nid` are exactly those
mapped or queued (5), and identifiers fit 32 bits (R28). Invariant 3, no aliasing, is no property of one
state here: two entries of the table share nothing, being values. -/
abbrev Memory.Inv (m : Memory) : Prop :=
  m.wf ∧ m.mapped 0 = true ∧ (∀ id ∈ m.free, m.mapped id = false) ∧ m.free.Nodup ∧
    (∀ id < m.nid, m.mapped id = true ∨ id ∈ m.free) ∧ (∀ p ∈ m.seg, p.1 < m.nid) ∧
    (∀ id ∈ m.free, id < m.nid) ∧ m.nid ≤ Config.identLimit

/-- The invariant every step keeps. -/
abbrev State.Inv (s : State) : Prop := s.mem.Inv

/-- The run has ended (R129): the status is Halted or Faulted. -/
abbrev State.ended (s : State) : Prop := s.status ≠ .running

/-- The run has ended well (R129): "a claim that a program works has status = Halted in its
postcondition". -/
abbrev State.succeeded (s : State) : Prop := s.status = .halted

/-- `t` is a state of a run from `s` (R128). -/
inductive Reaches (s : State) : State → Prop where
  | start : Reaches s s
  | step {t u : State} (run : Reaches s t) (now : Machine.step t = .next u) : Reaches s u

/-- No state of any run from `s` is faulted. -/
def NeverFaults (s : State) : Prop := ∀ t, Reaches s t → ∀ k, t.status ≠ .faulted k

/-- What a mapped identifier's segment holds, as the spec writes it: a finite sequence of words (R28, R29);
none for an unmapped identifier. -/
def Memory.contents (m : Memory) (id : Nat) : Option (List Word) := (m.segment id).map Segment.toWords

/-- The instruction of the next step, where the fetch and the decoder give one. -/
def State.nextInstr (s : State) : Option Instr := s.fetchInstr.toOption

/-! ### What a state leaves as another had it -/

/-- Every register is as before. -/
abbrev SameRegs (s t : State) : Prop := ∀ r, t.reg r = s.reg r

/-- Every register but `a` is as before. -/
abbrev SameRegsBut (a : Reg) (s t : State) : Prop := ∀ r, r ≠ a → t.reg r = s.reg r

/-- Every word of memory reads as before, every identifier is mapped or not and of the same length as before,
and the reuse queue and `nid` are as before. -/
abbrev SameMemory (s t : State) : Prop :=
  (∀ id off, t.mem.read id off = s.mem.read id off) ∧ (∀ i, t.mem.len i = s.mem.len i) ∧
    t.mem.free = s.mem.free ∧ t.mem.nid = s.mem.nid

/-- The output history and the input position are as before. -/
abbrev SameStreams (s t : State) : Prop := t.out = s.out ∧ t.inpos = s.inpos

/-- The status is as before, and so are the parameters of the run. -/
abbrev SameRun (s t : State) : Prop :=
  t.status = s.status ∧ t.input = s.input ∧ t.capacity = s.capacity

/-! ### The register table of R23 -/

/-- The register an instruction writes in a state (R23): none for a ConditionalMove whose condition fails, and
none for a SegmentedLoad or a Divide that faults. -/
def writes (i : Instr) (s : State) : Option Reg :=
  match i with
  | .conditionalMove a _ c => if s.reg c = 0#32 then none else some a
  | .segmentedLoad a b c => if (s.mem.read (s.reg b) (s.reg c)).toOption.isSome then some a else none
  | .segmentedStore _ _ _ => none
  | .add a _ _ => some a
  | .multiply a _ _ => some a
  | .divide a _ c => if s.reg c = 0#32 then none else some a
  | .nand a _ _ => some a
  | .halt => none
  | .mapSegment b _ => some b
  | .unmapSegment _ => none
  | .output _ => none
  | .input c => some c
  | .loadProgram _ _ => none
  | .loadValue a2 _ => some a2

/-- The registers what an instruction does in a state depends on (R23): a ConditionalMove whose condition fails
depends on x[C] alone ("x[B] only matters when x[C] != 0"). -/
def reads (i : Instr) (s : State) : List Reg :=
  match i with
  | .conditionalMove _ b c => if s.reg c = 0#32 then [c] else [b, c]
  | .segmentedLoad _ b c => [b, c]
  | .segmentedStore a b c => [a, b, c]
  | .add _ b c => [b, c]
  | .multiply _ b c => [b, c]
  | .divide _ b c => [b, c]
  | .nand _ b c => [b, c]
  | .halt => []
  | .mapSegment _ c => [c]
  | .unmapSegment c => [c]
  | .output c => [c]
  | .input _ => []
  | .loadProgram b c => [b, c]
  | .loadValue _ _ => []

/-! ### Allocations in a row -/

/-- Allocates segments of the given lengths one after the other, and answers their identifiers in that order
(R57). -/
def Memory.allocateEach (m : Memory) : List Word → Except Stop (List Nat × Memory)
  | [] => .ok ([], m)
  | n :: ns =>
    match m.allocate none n with
    | .error e => .error e
    | .ok (id, m') => (m'.allocateEach ns).map fun r => (id :: r.1, r.2)

end Sys2Proof.Machine
end

