-- ==== Sys2Proof/Certificates/Slice0/Obligations.lean ====
section
/-! DEFINITION. The statements for the provers, from the numbered rules of the spec. -/

open Sys2Proof Sys2Proof.Machine

/-! ### Encoding -/

/-- Decoding the canonical word of an instruction gives the instruction back, every operand at every value
(R103; the opcode numbers are the spec's D1, the zero ignored bits its D6). -/
def Obligations.DecodeOfEncodeGivesInstruction : Prop :=
  ∀ i : Instr, decode (encode i) = .ok i

/-- Encoding what a word decodes to gives the word with its ignored bits cleared, so the round trip from words
holds exactly for canonical words (R103). -/
def Obligations.EncodeOfDecodeClearsIgnoredBits : Prop :=
  ∀ (w : Word) (i : Instr), decode w = .ok i →
    encode i = w &&& usedBits i ∧ (encode i = w ↔ w &&& ~~~(usedBits i) = 0#32)

/-- Words that differ only in ignored bits decode alike, and no ignored bit is ever checked (R97, the spec's
D6). -/
def Obligations.IgnoredBitsTakeNoPart : Prop :=
  ∀ (w w' : Word) (i : Instr), decode w = .ok i → w &&& usedBits i = w' &&& usedBits i → decode w' = .ok i

/-- The illegal encodings are exactly the words from 0xE0000000 to 0xFFFFFFFF (R100; numbers by the spec's
D1). -/
def Obligations.IllegalWordsAreTopRange : Prop :=
  ∀ w : Word, decode w = .error .invalidOpcode ↔ 0xE0000000 ≤ w.toNat

/-- A few words written out from the encoding tables decode to the instructions they stand for (R106). -/
def Obligations.WrittenOutWordsDecode : Prop :=
  decode 0x00000053#32 = .ok (.conditionalMove 1 2 3) ∧
  decode 0x100001F5#32 = .ok (.segmentedLoad 7 6 5) ∧
  decode 0x3FFFFE53#32 = .ok (.add 1 2 3) ∧
  decode 0x7ABCDEF0#32 = .ok .halt ∧
  decode 0x8000000A#32 = .ok (.mapSegment 1 2) ∧
  decode 0xA0000005#32 = .ok (.output 5) ∧
  decode 0xDFFFFFFF#32 = .ok (.loadValue 7 0x1FFFFFF#25) ∧
  decode 0xE0000000#32 = .error .invalidOpcode

/-- The assembler accepts exactly the lines that write an instruction, and gives its canonical word: it refuses
a register number above 7 and an immediate above 0x1FFFFFF (R104; the syntax is the spec's D18). -/
def Obligations.AssemblerAcceptsExactlyInstructionLines : Prop :=
  ∀ (m : Mnemonic) (regs : List Nat) (imm : Option Nat) (w : Word),
    assemble (.op m regs imm) = some w ↔ ∃ i : Instr, i.line = .op m regs imm ∧ encode i = w

/-! ### The step -/

/-- When the word at the pc decodes to an instruction, a step of a running machine is that instruction's
meaning at that state; nothing is added around it (R122, R123, R125). -/
def Obligations.StepRunsDecodedInstruction : Prop :=
  ∀ (s : State) (w : Word) (i : Instr), s.status = .running → s.mem.read 0#32 s.pc = .ok w →
    decode w = .ok i → step s = exec i s

/-- A word placed for the next fetch is fetched and run by the very next step, whatever the state (the model's
own convention, log 15). -/
def Obligations.PlacedWordRunsNext : Prop :=
  ∀ (s : State) (nbits w : Nat) (i : Instr), decodeTableWord nbits w = some i →
    step (s.withFetchWord nbits w) = exec i (s.withFetchWord nbits w)

/-- The fetch is MemRead(0, pc): identifier 0 is mapped, the fetch fails only for pc at or beyond its length,
and then the step takes an OutOfBounds fault that changes no register, no memory and no stream (R71). -/
def Obligations.FetchIsBoundedReadOfSegmentZero : Prop :=
  ∀ s : State, s.Inv → s.status = .running → ∃ n, s.mem.len 0 = some n ∧
    (s.pc.toNat < n → ∃ w, s.mem.read 0#32 s.pc = .ok w ∧ s.fetch = .ok w) ∧
    (n ≤ s.pc.toNat → s.fetch = s.mem.read 0#32 s.pc ∧ ∃ t, step s = .next t ∧
      t.status = .faulted .outOfBounds ∧ SameRegs s t ∧ SameMemory s t ∧ SameStreams s t)

/-- There is no step from a terminal status (R121): the model's step stops with a reason of its own (log 7). -/
def Obligations.NoStepAfterTheEnd : Prop :=
  ∀ s : State, (s.status = .halted → step s = .fault .alreadyHalted) ∧
    ∀ k, s.status = .faulted k → step s = .fault (.alreadyFaulted k)

/-- A running machine always has a next state, but for the exhaustion of identifiers or storage in a
MapSegment or a LoadProgram (R70, R200, D12). -/
def Obligations.RunningMachineStepsOrIsExhausted : Prop :=
  ∀ s : State, s.status = .running → (∃ t, step s = .next t) ∨
    (step s = .refused .resourceExhausted ∧ ∃ b c : Reg,
      s.nextInstr = some (.mapSegment b c) ∨ s.nextInstr = some (.loadProgram b c))

/-- A step that faults changes nothing but the status (R126, R206; that the pc stays is the spec's D5,
log 8). -/
def Obligations.FaultingStepChangesOnlyStatus : Prop :=
  ∀ (s t : State) (k : FaultKind), step s = .next t → t.status = .faulted k →
    t = { s with status := .faulted k }

/-- OutOfBounds is raised in exactly four places: the fetch, SegmentedLoad, SegmentedStore and LoadProgram
(R202). -/
def Obligations.OutOfBoundsInExactlyFourPlaces : Prop :=
  ∀ s : State, s.status = .running →
    ((∃ t, step s = .next t ∧ t.status = .faulted .outOfBounds) ↔
      (∀ n, s.mem.len 0 = some n → n ≤ s.pc.toNat) ∨
      (∃ a b c, s.nextInstr = some (.segmentedLoad a b c) ∧
        ∀ n, s.mem.len (s.reg b).toNat = some n → n ≤ (s.reg c).toNat) ∨
      (∃ a b c, s.nextInstr = some (.segmentedStore a b c) ∧
        ∀ n, s.mem.len (s.reg a).toNat = some n → n ≤ (s.reg b).toNat) ∨
      (∃ b c, s.nextInstr = some (.loadProgram b c) ∧ s.mem.mapped (s.reg b).toNat = false))

/-- A DecodeFault is raised exactly when the fetched word has opcode 14 or 15, whatever its other bits, and then
no register, memory or stream has changed and the pc has not advanced (R201). -/
def Obligations.DecodeFaultExactlyOnInvalidOpcode : Prop :=
  ∀ s : State, s.status = .running →
    ((∃ t, step s = .next t ∧ t.status = .faulted .decodeFault) ↔
      ∃ w, s.fetch = .ok w ∧ (opField w = 14#4 ∨ opField w = 15#4)) ∧
    ∀ t, step s = .next t → t.status = .faulted .decodeFault →
      SameRegs s t ∧ SameMemory s t ∧ SameStreams s t ∧ t.pc = s.pc

/-- DivideByZero is raised exactly by a Divide whose divisor is 0, for every dividend, and InvalidDeallocation
exactly by an UnmapSegment of identifier 0 or of an unmapped identifier (R203, R204). -/
def Obligations.DivideAndUnmapFaultsExactly : Prop :=
  ∀ s : State, s.status = .running →
    ((∃ t, step s = .next t ∧ t.status = .faulted .divideByZero) ↔
      ∃ a b c, s.nextInstr = some (.divide a b c) ∧ s.reg c = 0#32) ∧
    ((∃ t, step s = .next t ∧ t.status = .faulted .invalidDeallocation) ↔
      ∃ c, s.nextInstr = some (.unmapSegment c) ∧
        (s.reg c = 0#32 ∨ s.mem.mapped (s.reg c).toNat = false))

/-- OutputOutOfRange is raised exactly by an Output of a value above 255 (R205, the spec's D8, log 10). -/
def Obligations.OutputFaultExactlyAbove255 : Prop :=
  ∀ s : State, s.status = .running →
    ((∃ t, step s = .next t ∧ t.status = .faulted .outputOutOfRange) ↔
      ∃ c, s.nextInstr = some (.output c) ∧ 255 < (s.reg c).toNat)

/-- Halt is the only clean termination: a step ends Halted exactly when it runs a Halt (R121). -/
def Obligations.OnlyHaltEndsCleanly : Prop :=
  ∀ s t : State, step s = .next t → (t.status = .halted ↔ s.nextInstr = some .halt)

/-- A step that leaves the machine running sets the pc to x[C] for LoadProgram, and to the next word, without
wrapping, for every other instruction (R26, R124). -/
def Obligations.PcAdvancesUnlessLoadProgram : Prop :=
  ∀ s t : State, s.Inv → step s = .next t → t.status = .running →
    (∃ b c, s.nextInstr = some (.loadProgram b c) ∧ t.pc = s.reg c) ∨
      ((∀ b c, s.nextInstr ≠ some (.loadProgram b c)) ∧ t.pc.toNat = s.pc.toNat + 1)

/-! ### Invariants -/

/-- Every step keeps the memory invariants of R32 and the canonical form of memory (log 6). -/
def Obligations.StepKeepsMemoryInvariants : Prop :=
  ∀ s t : State, s.Inv → step s = .next t → t.Inv

/-- The invariants hold right after reset (R32, R38). -/
def Obligations.ResetMeetsMemoryInvariants : Prop :=
  State.reset.Inv

/-- Right after reset from PROG every register is 0, segment 0 is PROG word for word, every other identifier is
unmapped, the queue is empty, `nid` is 1, the streams are at their start and the invariants hold; a PROG of
2^32 words or more is not admitted, every other is, under every oracle and capacity; reset with no argument
is reset from an empty PROG (R38, R244; pc 0 is the spec's D2, the queue D3, the status D16, the bound on the
length D14; logs 2, 9 and, for a PROG longer than the capacity, the model's choice, 20). -/
def Obligations.BootLeavesTheStatedState : Prop :=
  State.boot [] (Oracle.finite []) none = some State.reset ∧
  ∀ (prog : List Word) (input : Oracle) (cap : Option Nat),
    (2 ^ 32 ≤ prog.length → State.boot prog input cap = none) ∧
    (prog.length < 2 ^ 32 → ∃ s, State.boot prog input cap = some s ∧ s.Inv ∧ (∀ r, s.reg r = 0#32) ∧ s.pc = 0#32 ∧
      (∀ off : Word, s.mem.read 0#32 off =
        if h : off.toNat < prog.length then .ok prog[off.toNat] else .error (.raised .outOfBounds)) ∧
      (∀ i, i ≠ 0 → s.mem.mapped i = false) ∧ s.mem.free = [] ∧ s.mem.nid = 1 ∧
      s.status = .running ∧ s.out = [] ∧ s.inpos = 0 ∧ s.input = input ∧ s.capacity = cap)

/-- Along every run the invariants are kept, identifiers once issued stay issued, emitted bytes are never taken
back, consumed input is never given back, and the parameters of the run do not change (R32, R128, R193,
R194). -/
def Obligations.RunsKeepInvariantsAndHistory : Prop :=
  ∀ s t : State, s.Inv → Reaches s t →
    t.Inv ∧ s.mem.nid ≤ t.mem.nid ∧ (∃ later, t.out = s.out ++ later) ∧ s.inpos ≤ t.inpos ∧
      t.input = s.input ∧ t.capacity = s.capacity

/-- No step takes the words in use above a finite capacity (R70, D12; log 5). -/
def Obligations.StepsStayWithinCapacity : Prop :=
  ∀ (s t : State) (cap : Nat), s.Inv → s.capacity = some cap → s.mem.words ≤ cap → step s = .next t →
    t.mem.words ≤ cap

/-- MapSegment is refused exactly when no identifier is left or its words do not fit, and LoadProgram exactly
when it copies and the new segment 0 does not fit; no other instruction is ever refused (R70, D12; the way
the words are counted is log 5). -/
def Obligations.RefusedExactlyWhenExhausted : Prop :=
  ∀ (s : State), s.Inv →
    (∀ (b c : Reg) (q : Refusal), exec (.mapSegment b c) s = .refused q ↔ q = .resourceExhausted ∧
      ((s.mem.free = [] ∧ s.mem.nid = 2 ^ 32) ∨
        ∃ cap, s.capacity = some cap ∧ cap < s.mem.words + (s.reg c).toNat)) ∧
    (∀ (b c : Reg) (q : Refusal), exec (.loadProgram b c) s = .refused q ↔ q = .resourceExhausted ∧
      s.reg b ≠ 0#32 ∧ ∃ cap n old, s.capacity = some cap ∧ s.mem.len (s.reg b).toNat = some n ∧
        s.mem.len 0 = some old ∧ cap + old < s.mem.words + n) ∧
    ∀ (i : Instr) (q : Refusal), exec i s = .refused q →
      ∃ b c, i = .mapSegment b c ∨ i = .loadProgram b c

/-! ### The five operations of the segment indexer -/

/-- MemRead raises OutOfBounds for an unmapped identifier and for an offset at or beyond the length, and else
gives the word the segment holds there (R52). -/
def Obligations.MemReadRule : Prop :=
  ∀ (m : Memory) (id off : Word),
    (m.contents id.toNat = none → m.read id off = .error (.raised .outOfBounds)) ∧
    ∀ ws, m.contents id.toNat = some ws →
      (ws.length ≤ off.toNat → m.read id off = .error (.raised .outOfBounds)) ∧
      ∀ v, ws[off.toNat]? = some v → m.read id off = .ok v

/-- MemWrite fails just where MemRead fails and with the same fault; else it replaces exactly that word and
changes no other word, no length, no mapping, not the queue and not `nid` (R53). -/
def Obligations.MemWriteRule : Prop :=
  ∀ (m : Memory) (id off v : Word),
    ((∃ e, m.read id off = .error e) → m.write id off v = .error (.raised .outOfBounds)) ∧
    ∀ old, m.read id off = .ok old → ∃ m', m.write id off v = .ok m' ∧ m'.read id off = .ok v ∧
      (∀ id' off', ¬(id' = id ∧ off' = off) → m'.read id' off' = m.read id' off') ∧
      (∀ i, m'.len i = m.len i) ∧ m'.free = m.free ∧ m'.nid = m.nid

/-- Allocate binds the identifier freed earliest, or else one past the current maximum, to a new segment of
exactly n words, every word 0; it never fails short of R70's limits and never answers 0 (R54). -/
def Obligations.AllocateRule : Prop :=
  ∀ (m : Memory) (n : Word), m.Inv → (m.free ≠ [] ∨ m.nid < 2 ^ 32) →
    ∃ id m', m.allocate none n = .ok (id, m') ∧ id ≠ 0 ∧
      (∀ first rest, m.free = first :: rest → id = first ∧ m'.free = rest ∧ m'.nid = m.nid) ∧
      (m.free = [] → id = m.nid ∧ m'.free = [] ∧ m'.nid = m.nid + 1) ∧
      m'.contents id = some (List.replicate n.toNat 0#32) ∧
      ∀ j, j ≠ id → m'.contents j = m.contents j

/-- Deallocate raises InvalidDeallocation for identifier 0 and for an unmapped identifier; else it unmaps the
segment and appends the identifier to the tail of the queue (R55). -/
def Obligations.DeallocateRule : Prop :=
  ∀ (m : Memory) (id : Word),
    (id = 0#32 ∨ m.mapped id.toNat = false → m.deallocate id = .error (.raised .invalidDeallocation)) ∧
    (id ≠ 0#32 → m.mapped id.toNat = true → ∃ m', m.deallocate id = .ok m' ∧
      m'.mapped id.toNat = false ∧ m'.free = m.free ++ [id.toNat] ∧ m'.nid = m.nid ∧
      ∀ j, j ≠ id.toNat → m'.contents j = m.contents j)

/-- DuplicateIntoZero raises OutOfBounds for an unmapped source, does nothing for source 0, and else replaces
segment 0 whole by the source's words, the source and all else unchanged; a later write to either of the
two segments is not seen in the other (R56). -/
def Obligations.DuplicateIntoZeroRule : Prop :=
  ∀ (m : Memory) (src : Word),
    (m.mapped src.toNat = false → m.duplicateIntoZero none src = .error (.raised .outOfBounds)) ∧
    (m.mapped 0 = true → m.duplicateIntoZero none 0#32 = .ok m) ∧
    (src ≠ 0#32 → m.mapped src.toNat = true → ∃ m', m.duplicateIntoZero none src = .ok m' ∧
      m'.contents 0 = m.contents src.toNat ∧ m'.len 0 = m.len src.toNat ∧
      (∀ j, j ≠ 0 → m'.contents j = m.contents j) ∧ m'.free = m.free ∧ m'.nid = m.nid ∧
      ∀ (off v : Word) (m'' : Memory),
        (m'.write 0#32 off v = .ok m'' → m''.contents src.toNat = m.contents src.toNat) ∧
        (m'.write src off v = .ok m'' → m''.contents 0 = m.contents src.toNat))

/-- Freed identifiers come back in the order they were freed, after those freed before them: whatever the queue
holds, once a and then b are freed, allocations of any lengths all succeed while it lasts, and answer first
the identifiers queued before, in their order, then a, then b (R57). -/
def Obligations.ReuseIsFirstInFirstOut : Prop :=
  ∀ (m m1 m2 : Memory) (a b : Word) (ns : List Word),
    m.deallocate a = .ok m1 → m1.deallocate b = .ok m2 → ns.length ≤ m.free.length + 2 →
    ∃ m3, m2.allocateEach ns = .ok ((m.free ++ [a.toNat, b.toNat]).take ns.length, m3) ∧
      m3.free = (m.free ++ [a.toNat, b.toNat]).drop ns.length ∧ m3.nid = m.nid

/-- Every word of a segment Allocate answers reads 0, whether its identifier is new or reused, and goes on
reading 0 while other words are written (R58). -/
def Obligations.AllocatedWordsReadZeroUntilWritten : Prop :=
  ∀ (m m' : Memory) (cap : Option Nat) (n id off : Word), m.Inv →
    m.allocate cap n = .ok (id.toNat, m') → off.toNat < n.toNat →
    m'.read id off = .ok 0#32 ∧
    ∀ (id' off' v : Word) (m'' : Memory), ¬(id' = id ∧ off' = off) →
      m'.write id' off' v = .ok m'' → m''.read id off = .ok 0#32

/-- Distinct identifiers have independent storage, and a copy into segment 0 shares none with its source
(R59). -/
def Obligations.IdentifiersNeverShareStorage : Prop :=
  (∀ (m m' : Memory) (id id' off off' v : Word), id ≠ id' → m.write id off v = .ok m' →
    m'.read id' off' = m.read id' off') ∧
  ∀ (m m1 m2 : Memory) (cap : Option Nat) (src off off' v : Word), src ≠ 0#32 →
    m.duplicateIntoZero cap src = .ok m1 →
    (m1.write 0#32 off v = .ok m2 → m2.read src off' = m.read src off') ∧
    (m1.write src off v = .ok m2 → m2.read 0#32 off' = m.read src off')

/-- What the identifier table holds, as a partial map from identifiers to finite sequences of words, gives what
MemRead answers, and becomes after each of the four other operations what the spec says (R28, R29, R52 to
R56; the sparse form is log 6). When the operations answer, which identifier is picked, the queue and `nid`
are the matter of the statements on each operation. -/
def Obligations.MemoryRefinesWordSequences : Prop :=
  ∀ (m : Memory) (cap : Option Nat),
    (∀ (id off v : Word), m.read id off = .ok v ↔
      ∃ ws, m.contents id.toNat = some ws ∧ ws[off.toNat]? = some v) ∧
    (∀ (id off v : Word) (m' : Memory), m.write id off v = .ok m' → ∀ j, m'.contents j =
      if j = id.toNat then (m.contents j).map (·.set off.toNat v) else m.contents j) ∧
    (∀ (n : Word) (id : Nat) (m' : Memory), m.allocate cap n = .ok (id, m') → ∀ j, m'.contents j =
      if j = id then some (List.replicate n.toNat 0#32) else m.contents j) ∧
    (∀ (id : Word) (m' : Memory), m.deallocate id = .ok m' → ∀ j, m'.contents j =
      if j = id.toNat then none else m.contents j) ∧
    (∀ (src : Word) (m' : Memory), m.duplicateIntoZero cap src = .ok m' → ∀ j, m'.contents j =
      if j = 0 then m.contents src.toNat else m.contents j)

/-- Memories in canonical form that hold the same words, the same queue and the same `nid` are the same data
(the model's own form, log 6). -/
def Obligations.CanonicalMemoriesAreDeterminedByContents : Prop :=
  ∀ m m' : Memory, m.wf → m'.wf → (∀ i, m.contents i = m'.contents i) → m.free = m'.free →
    m.nid = m'.nid → m = m'

/-! ### Whole-machine rules -/

/-- A word of memory changes only by a SegmentedStore to it, by an UnmapSegment of its segment, or, in segment
0, by a LoadProgram that copies (R51, R62, R65). -/
def Obligations.WordsChangeOnlyByNamedInstructions : Prop :=
  ∀ (s t : State) (id off v : Word), s.Inv → step s = .next t → s.mem.read id off = .ok v →
    t.mem.read id off = .ok v ∨
    (∃ a b c, s.nextInstr = some (.segmentedStore a b c) ∧ s.reg a = id ∧ s.reg b = off) ∨
    (∃ c, s.nextInstr = some (.unmapSegment c) ∧ s.reg c = id) ∨
    (∃ b c, s.nextInstr = some (.loadProgram b c) ∧ id = 0#32 ∧ s.reg b ≠ 0#32)

/-- A mapped segment keeps its length until it is unmapped, but for segment 0 when a LoadProgram replaces it
(R29, C9). -/
def Obligations.SegmentLengthsAreFixed : Prop :=
  ∀ (s t : State) (i n : Nat), s.Inv → step s = .next t → s.mem.len i = some n →
    t.mem.len i = some n ∨
    (∃ c, s.nextInstr = some (.unmapSegment c) ∧ (s.reg c).toNat = i ∧ i ≠ 0 ∧ t.mem.len i = none) ∨
    (∃ b c, s.nextInstr = some (.loadProgram b c) ∧ i = 0 ∧ s.reg b ≠ 0#32 ∧
      t.mem.len i = s.mem.len (s.reg b).toNat)

/-- A store to the word the next step fetches is what that step fetches (R68). -/
def Obligations.StoreToProgramIsFetchedNext : Prop :=
  ∀ (s t : State) (a b c : Reg), s.nextInstr = some (.segmentedStore a b c) → s.reg a = 0#32 →
    s.reg b = s.pc + 1 → step s = .next t → t.status = .running → t.fetch = .ok (s.reg c)

/-- An instruction writes no register but the one its row of the table names, and under the row's condition (a
ConditionalMove only when x[C] is not 0, a Divide unless it faults), and what it does depends on no register
but those its row names: whatever else a register it does not read held before, the next state is the same,
the value written to that very register included; only where the register is not written does it still hold
what it held (R23). -/
def Obligations.RegistersAreReadAndWrittenAsTabulated : Prop :=
  (∀ (i : Instr) (s t : State) (r : Reg), exec i s = .next t → writes i s ≠ some r → t.reg r = s.reg r) ∧
  ∀ (i : Instr) (s : State) (r : Reg) (v : Word), r ∉ reads i s →
    (∀ t, exec i s = .next t → exec i (s.setReg r v) = .next (if writes i s = some r then t else t.setReg r v)) ∧
    ∀ q, exec i s = .refused q → exec i (s.setReg r v) = .refused q

/-- A step emits nothing, or, for an Output of a value in 0..255, exactly that byte after all earlier ones
(R192, R194). -/
def Obligations.OutputOnlyAppendsItsByte : Prop :=
  ∀ s t : State, step s = .next t →
    (t.out = s.out ∧ ∀ c, s.nextInstr = some (.output c) → 255 < (s.reg c).toNat) ∨
    (∃ c, s.nextInstr = some (.output c) ∧ ∃ byte : Byte, byte.toNat = (s.reg c).toNat ∧
      t.out = s.out ++ [byte])

/-- An Input consumes exactly one answer and no other step consumes any; no step changes the oracle or the
capacity (R193). -/
def Obligations.InputConsumesExactlyOneAnswer : Prop :=
  ∀ s t : State, step s = .next t → t.input = s.input ∧ t.capacity = s.capacity ∧
    ((∃ c, s.nextInstr = some (.input c) ∧ t.inpos = s.inpos + 1) ∨
      ((∀ c, s.nextInstr ≠ some (.input c)) ∧ t.inpos = s.inpos))

/-- The only outside influence on a step is the answer to its own Input: under another oracle with the same
next answer, or under any oracle where the step is no Input, it does the same (R128). -/
def Obligations.OracleActsOnlyThroughInput : Prop :=
  ∀ (s : State) (other : Oracle),
    ((∀ c, s.nextInstr ≠ some (.input c)) ∨ s.answer = State.answer { s with input := other }) →
    (∀ t, step s = .next t → step { s with input := other } = .next { t with input := other }) ∧
    ∀ q, step s = .refused q → step { s with input := other } = .refused q

/-- No instruction reads the output history: after another history the same step emits the same (R36). -/
def Obligations.OutputHistoryIsNeverRead : Prop :=
  ∀ (s t : State) (other : List Byte), step s = .next t → ∃ emitted, t.out = s.out ++ emitted ∧
    step { s with out := other } = .next { t with out := other ++ emitted }

/-! ### The instructions -/

/-- ConditionalMove completes in every state: x[A] becomes x[B] when x[C] is not 0 and keeps its value when it
is, and nothing else changes but the pc, which advances by 1 (R140). -/
def Obligations.ConditionalMoveRule : Prop :=
  ∀ (a b c : Reg) (s : State), ∃ t, exec (.conditionalMove a b c) s = .next t ∧
    (s.reg c ≠ 0#32 → t.reg a = s.reg b) ∧ (s.reg c = 0#32 → t.reg a = s.reg a) ∧
    SameRegsBut a s t ∧ t.pc = s.pc + 1 ∧ SameMemory s t ∧ SameStreams s t ∧ SameRun s t

/-- LoadValue completes in every state: x[A2] becomes the zero-extended immediate (R141). -/
def Obligations.LoadValueRule : Prop :=
  ∀ (a2 : Reg) (imm : BitVec 25) (s : State), ∃ t, exec (.loadValue a2 imm) s = .next t ∧
    (t.reg a2).toNat = imm.toNat ∧ (t.reg a2).toNat ≤ 0x01FFFFFF ∧
    SameRegsBut a2 s t ∧ t.pc = s.pc + 1 ∧ SameMemory s t ∧ SameStreams s t ∧ SameRun s t

/-- Add completes in every state: x[A] becomes the sum modulo 2^32 (R160). -/
def Obligations.AddRule : Prop :=
  ∀ (a b c : Reg) (s : State), ∃ t, exec (.add a b c) s = .next t ∧
    (t.reg a).toNat = ((s.reg b).toNat + (s.reg c).toNat) % 2 ^ 32 ∧
    SameRegsBut a s t ∧ t.pc = s.pc + 1 ∧ SameMemory s t ∧ SameStreams s t ∧ SameRun s t

/-- Multiply completes in every state: x[A] becomes the product modulo 2^32 (R161). -/
def Obligations.MultiplyRule : Prop :=
  ∀ (a b c : Reg) (s : State), ∃ t, exec (.multiply a b c) s = .next t ∧
    (t.reg a).toNat = ((s.reg b).toNat * (s.reg c).toNat) % 2 ^ 32 ∧
    SameRegsBut a s t ∧ t.pc = s.pc + 1 ∧ SameMemory s t ∧ SameStreams s t ∧ SameRun s t

/-- Divide completes whenever the divisor is not 0: x[A] becomes the q with q * d <= n < (q + 1) * d. With a
divisor of 0 it takes DivideByZero, every dividend alike, and changes nothing but the status (R162, R166; that
the pc stays is the spec's D5, log 8). -/
def Obligations.DivideRule : Prop :=
  ∀ (a b c : Reg) (s : State),
    (s.reg c ≠ 0#32 → ∃ t, exec (.divide a b c) s = .next t ∧
      (t.reg a).toNat * (s.reg c).toNat ≤ (s.reg b).toNat ∧
      (s.reg b).toNat < ((t.reg a).toNat + 1) * (s.reg c).toNat ∧
      SameRegsBut a s t ∧ t.pc = s.pc + 1 ∧ SameMemory s t ∧ SameStreams s t ∧ SameRun s t) ∧
    (s.reg c = 0#32 → exec (.divide a b c) s = .next { s with status := .faulted .divideByZero })

/-- Nand completes in every state: bit i of x[A] is 1 unless bit i of both sources is 1 (R163). -/
def Obligations.NandRule : Prop :=
  ∀ (a b c : Reg) (s : State), ∃ t, exec (.nand a b c) s = .next t ∧
    (∀ i < 32, (t.reg a).getLsbD i = !((s.reg b).getLsbD i && (s.reg c).getLsbD i)) ∧
    SameRegsBut a s t ∧ t.pc = s.pc + 1 ∧ SameMemory s t ∧ SameStreams s t ∧ SameRun s t

/-- SegmentedLoad completes whenever x[B] is mapped and x[C] is below its length: x[A] becomes that word. Else it
takes OutOfBounds and changes nothing but the status (R150; that the pc stays is the spec's D5, log 8). -/
def Obligations.SegmentedLoadRule : Prop :=
  ∀ (a b c : Reg) (s : State),
    (∀ n, s.mem.len (s.reg b).toNat = some n → (s.reg c).toNat < n →
      ∃ t, exec (.segmentedLoad a b c) s = .next t ∧
        s.mem.read (s.reg b) (s.reg c) = .ok (t.reg a) ∧
        SameRegsBut a s t ∧ t.pc = s.pc + 1 ∧ SameMemory s t ∧ SameStreams s t ∧ SameRun s t) ∧
    ((∀ n, s.mem.len (s.reg b).toNat = some n → n ≤ (s.reg c).toNat) →
      exec (.segmentedLoad a b c) s = .next { s with status := .faulted .outOfBounds })

/-- SegmentedStore completes whenever x[A] is mapped and x[B] is below its length: the word at (x[A], x[B])
becomes x[C], and no other word, no length, no register changes. Else it takes OutOfBounds and changes
nothing but the status (R151; that the pc stays is the spec's D5, log 8). -/
def Obligations.SegmentedStoreRule : Prop :=
  ∀ (a b c : Reg) (s : State),
    (∀ n, s.mem.len (s.reg a).toNat = some n → (s.reg b).toNat < n →
      ∃ t, exec (.segmentedStore a b c) s = .next t ∧
        t.mem.read (s.reg a) (s.reg b) = .ok (s.reg c) ∧
        (∀ id off, ¬(id = s.reg a ∧ off = s.reg b) → t.mem.read id off = s.mem.read id off) ∧
        (∀ i, t.mem.len i = s.mem.len i) ∧ t.mem.free = s.mem.free ∧ t.mem.nid = s.mem.nid ∧
        SameRegs s t ∧ t.pc = s.pc + 1 ∧ SameStreams s t ∧ SameRun s t) ∧
    ((∀ n, s.mem.len (s.reg a).toNat = some n → n ≤ (s.reg b).toNat) →
      exec (.segmentedStore a b c) s = .next { s with status := .faulted .outOfBounds })

/-- Halt completes in every state: the status becomes Halted and nothing else changes (R170; that the pc stays
is the spec's D4, log 8). -/
def Obligations.HaltRule : Prop :=
  ∀ s : State, ∃ t, exec .halt s = .next t ∧ t.status = .halted ∧ t.pc = s.pc ∧ SameRegs s t ∧
    SameMemory s t ∧ SameStreams s t ∧ t.input = s.input ∧ t.capacity = s.capacity

/-- MapSegment completes whenever an identifier is left and the words fit the capacity: x[B] becomes the
identifier freed earliest or else one past the current maximum, never 0; its segment has exactly x[C] words,
all 0; every other segment is unchanged (R180; the limits are R70's, the spec's D12). -/
def Obligations.MapSegmentRule : Prop :=
  ∀ (b c : Reg) (s : State), s.Inv → (s.mem.free ≠ [] ∨ s.mem.nid < 2 ^ 32) →
    (∀ cap, s.capacity = some cap → s.mem.words + (s.reg c).toNat ≤ cap) →
    ∃ t, exec (.mapSegment b c) s = .next t ∧ t.reg b ≠ 0#32 ∧
      (∀ first rest, s.mem.free = first :: rest →
        (t.reg b).toNat = first ∧ t.mem.free = rest ∧ t.mem.nid = s.mem.nid) ∧
      (s.mem.free = [] →
        (t.reg b).toNat = s.mem.nid ∧ t.mem.free = [] ∧ t.mem.nid = s.mem.nid + 1) ∧
      t.mem.len (t.reg b).toNat = some (s.reg c).toNat ∧
      (∀ off : Word, off.toNat < (s.reg c).toNat → t.mem.read (t.reg b) off = .ok 0#32) ∧
      (∀ id off, id ≠ t.reg b → t.mem.read id off = s.mem.read id off) ∧
      (∀ i, i ≠ (t.reg b).toNat → t.mem.len i = s.mem.len i) ∧
      SameRegsBut b s t ∧ t.pc = s.pc + 1 ∧ SameStreams s t ∧ SameRun s t

/-- UnmapSegment completes whenever x[C] is mapped and not 0: the segment is unmapped, the identifier goes to
the tail of the queue, every other segment and every register is unchanged. Else it takes
InvalidDeallocation and changes nothing but the status (R181; that the pc stays is the spec's D5, log 8). -/
def Obligations.UnmapSegmentRule : Prop :=
  ∀ (c : Reg) (s : State),
    (s.reg c ≠ 0#32 → s.mem.mapped (s.reg c).toNat = true → ∃ t, exec (.unmapSegment c) s = .next t ∧
      t.mem.mapped (s.reg c).toNat = false ∧ t.mem.free = s.mem.free ++ [(s.reg c).toNat] ∧
      t.mem.nid = s.mem.nid ∧
      (∀ off, t.mem.read (s.reg c) off = .error (.raised .outOfBounds)) ∧
      (∀ id off, id ≠ s.reg c → t.mem.read id off = s.mem.read id off) ∧
      (∀ i, i ≠ (s.reg c).toNat → t.mem.len i = s.mem.len i) ∧
      SameRegs s t ∧ t.pc = s.pc + 1 ∧ SameStreams s t ∧ SameRun s t) ∧
    (s.reg c = 0#32 ∨ s.mem.mapped (s.reg c).toNat = false →
      exec (.unmapSegment c) s = .next { s with status := .faulted .invalidDeallocation })

/-- Output completes for a value in 0..255: that byte is appended to the output. A value above 255 takes
OutputOutOfRange, nothing is emitted and nothing changes but the status (R190; the fault is the spec's D8, log
10, and that the pc stays its D5, log 8). -/
def Obligations.OutputRule : Prop :=
  ∀ (c : Reg) (s : State),
    ((s.reg c).toNat ≤ 255 → ∃ t, exec (.output c) s = .next t ∧
      (∃ byte : Byte, byte.toNat = (s.reg c).toNat ∧ t.out = s.out ++ [byte]) ∧ t.inpos = s.inpos ∧
      SameRegs s t ∧ t.pc = s.pc + 1 ∧ SameMemory s t ∧ SameRun s t) ∧
    (255 < (s.reg c).toNat →
      exec (.output c) s = .next { s with status := .faulted .outputOutOfRange })

/-- Input completes in every state and under every oracle: x[C] becomes the byte of answer number `inpos`,
zero-extended, or 0xFFFFFFFF when that answer is end-of-stream; one answer is consumed (R191, R193; the zero
extension is the spec's D9, log 11). -/
def Obligations.InputRule : Prop :=
  ∀ (c : Reg) (s : State), ∃ t, exec (.input c) s = .next t ∧
    (∀ byte : Byte, s.input.answer s.inpos = .byte byte → (t.reg c).toNat = byte.toNat) ∧
    (s.input.answer s.inpos = .eof → t.reg c = 0xFFFFFFFF#32) ∧
    t.inpos = s.inpos + 1 ∧ t.out = s.out ∧
    SameRegsBut c s t ∧ t.pc = s.pc + 1 ∧ SameMemory s t ∧ SameRun s t

/-- LoadProgram completes whenever x[B] is mapped and the copy fits the capacity: segment 0 becomes a copy of
segment x[B], or stays as it is for x[B] = 0, and the pc becomes x[C], unchecked. For an unmapped x[B] it takes
OutOfBounds and changes nothing but the status (R171; the capacity is R70's, D12, log 5; that the pc stays
at a fault is the spec's D5, log 8). -/
def Obligations.LoadProgramRule : Prop :=
  ∀ (b c : Reg) (s : State), s.Inv →
    (∀ n old, s.mem.len (s.reg b).toNat = some n → s.mem.len 0 = some old →
      (s.reg b ≠ 0#32 → ∀ cap, s.capacity = some cap → s.mem.words + n ≤ cap + old) →
      ∃ t, exec (.loadProgram b c) s = .next t ∧ t.pc = s.reg c ∧
        (∀ off, t.mem.read 0#32 off = s.mem.read (s.reg b) off) ∧ t.mem.len 0 = some n ∧
        (∀ id off, id ≠ 0#32 → t.mem.read id off = s.mem.read id off) ∧
        (∀ i, i ≠ 0 → t.mem.len i = s.mem.len i) ∧
        t.mem.free = s.mem.free ∧ t.mem.nid = s.mem.nid ∧
        SameRegs s t ∧ SameStreams s t ∧ SameRun s t) ∧
    (s.mem.mapped (s.reg b).toNat = false →
      exec (.loadProgram b c) s = .next { s with status := .faulted .outOfBounds })

/-! ### The INPUT oracle -/

/-- The INPUT oracle of a finite input answers its bytes in order and then end-of-stream for ever; and every
sequence of answers that is the same from some point on is an oracle, a stream without end among them (R193,
the spec's D9; the oracle as plain data is the model's choice, log 3, and so are its free oracles, of whose
answers nothing can be stated). -/
def Obligations.InputOraclesCoverAnswerSequences : Prop :=
  (∀ (bytes : List Byte) (n : Nat),
    (Oracle.finite bytes).answer n = match bytes[n]? with | some byte => .byte byte | none => .eof) ∧
  ∀ (f : Nat → Answer) (len : Nat) (a : Answer), (∀ n, len ≤ n → f n = a) →
    ∃ o : Oracle, ∀ n, o.answer n = f n
end

