-- ==== Sys2Proof/Laws/Assoc.lean ====
section
/-! SUPPORT. The laws of the sorted association lists that hold the identifier table and a segment's words:
what a key reads as after an update, and that the updates keep the canonical order. -/

namespace Sys2Proof.Machine.Assoc

variable {α : Type} {k j : Nat} {v : α} {m : List (Nat × α)}

@[simp] theorem get_nil : get k ([] : List (Nat × α)) = none := rfl

theorem get_cons {p : Nat × α} : get k (p :: m) = if k = p.1 then some p.2 else get k m := rfl

@[simp] theorem get_put_same : get k (put k v m) = some v := by
  induction m with
  | nil => simp [put, get]
  | cons p m ih =>
    unfold put
    split
    · simp [get]
    · split
      · simp [get]
      · simp [get, *]

theorem get_put_other (h : j ≠ k) : get j (put k v m) = get j m := by
  induction m with
  | nil => simp [put, get, h]
  | cons p m ih =>
    unfold put
    split
    · simp [get, h]
    · split
      · next e => subst e; simp [get, h]
      · simp [get, ih]

theorem get_put : get j (put k v m) = if j = k then some v else get j m := by
  by_cases h : j = k
  · subst h; simp
  · simp [h, get_put_other]

theorem get_del : get j (del k m) = if j = k then none else get j m := by
  induction m with
  | nil => simp [del]
  | cons p m ih =>
    unfold del at ih ⊢
    by_cases hp : p.1 = k
    · rw [List.filter_cons_of_neg (by simp [hp]), ih, get_cons]
      by_cases hj : j = k
      · simp [hj]
      · simp [hj, hp]
    · rw [List.filter_cons_of_pos (by simp [hp]), get_cons, get_cons, ih]
      by_cases hj : j = p.1
      · simp [hj, hp]
      · simp [hj]

@[simp] theorem get_del_same : get k (del k m) = none := by simp [get_del]

theorem get_del_other (h : j ≠ k) : get j (del k m) = get j m := by simp [get_del, h]

/-- A key that is read is listed. -/
theorem mem_of_get (h : get k m = some v) : (k, v) ∈ m := by
  induction m with
  | nil => simp at h
  | cons p m ih =>
    rw [get_cons] at h
    split at h
    · next e => cases h; subst e; exact List.mem_cons_self
    · exact List.mem_cons_of_mem _ (ih h)

/-- In a map in order, what is listed is what is read. -/
theorem get_of_mem (hs : Sorted m) (h : (k, v) ∈ m) : get k m = some v := by
  induction m with
  | nil => simp at h
  | cons p m ih =>
    rw [get_cons]
    obtain ⟨hp, hm⟩ := List.pairwise_cons.mp hs
    rcases List.mem_cons.mp h with rfl | h
    · simp
    · rw [if_neg (Nat.ne_of_gt (hp _ h)), ih hm h]

theorem get_isSome_iff : (get k m).isSome ↔ ∃ p ∈ m, p.1 = k := by
  induction m with
  | nil => simp
  | cons p m ih =>
    rw [get_cons]
    by_cases h : k = p.1
    · simp [h]
    · simp [h, ih, Ne.symm h]

/-- What a map lists after an update: the new pair, or an old pair of another key. -/
theorem mem_put {p : Nat × α} (h : p ∈ put k v m) : p = (k, v) ∨ p ∈ m := by
  induction m with
  | nil => simpa [put] using h
  | cons q m ih =>
    unfold put at h
    split at h
    · simpa using h
    · split at h
      · rcases List.mem_cons.mp h with h | h
        · exact .inl h
        · exact .inr (List.mem_cons_of_mem _ h)
      · rcases List.mem_cons.mp h with h | h
        · exact .inr (h ▸ List.mem_cons_self)
        · exact (ih h).imp id (List.mem_cons_of_mem _)

theorem mem_of_mem_del {p : Nat × α} (h : p ∈ del k m) : p ∈ m := (List.mem_filter.mp h).1

theorem sorted_put (hs : Sorted m) : Sorted (put k v m) := by
  induction m with
  | nil => simp [put, Sorted]
  | cons q m ih =>
    obtain ⟨hq, hm⟩ := List.pairwise_cons.mp hs
    unfold put
    split
    · next h =>
      refine List.pairwise_cons.mpr ⟨fun p hp => ?_, hs⟩
      rcases List.mem_cons.mp hp with rfl | hp
      · exact h
      · exact Nat.lt_trans h (hq p hp)
    · split
      · next e => subst e; exact List.pairwise_cons.mpr ⟨hq, hm⟩
      · next h e =>
        refine List.pairwise_cons.mpr ⟨fun p hp => ?_, ih hm⟩
        rcases mem_put hp with rfl | hp
        · show q.1 < k; omega
        · exact hq p hp

theorem sorted_del (hs : Sorted m) : Sorted (del k m) := hs.filter _

/-- Binding a key that is not listed adds one pair, with its share of any sum over the pairs. -/
theorem sum_put_new (f : Nat × α → Nat) (h : get k m = none) :
    ((put k v m).map f).sum = f (k, v) + (m.map f).sum := by
  induction m with
  | nil => simp [put]
  | cons p m ih =>
    rw [get_cons] at h
    split at h
    · simp at h
    · next e =>
      unfold put
      split
      · simp
      · simp [ih h]; omega

/-- Binding a listed key anew exchanges its share of a sum over the pairs. -/
theorem sum_put_old {w : α} (f : Nat × α → Nat) (hs : Sorted m) (h : get k m = some w) :
    ((put k v m).map f).sum + f (k, w) = f (k, v) + (m.map f).sum := by
  induction m with
  | nil => simp at h
  | cons p m ih =>
    obtain ⟨hp, hm⟩ := List.pairwise_cons.mp hs
    rw [get_cons] at h
    split at h
    · next e =>
      cases h
      obtain ⟨i, w⟩ := p
      cases e
      simp [put]; omega
    · next e =>
      have := ih hm h
      have lt : p.1 < k := hp _ (mem_of_get h)
      unfold put
      rw [if_neg (by omega), if_neg e]
      simp; omega

theorem length_put_new (h : get k m = none) : (put k v m).length = m.length + 1 := by
  simpa [Nat.add_comm] using sum_put_new (v := v) (fun _ => 1) h

/-- Two maps in order that read alike at every key are the same list. -/
theorem ext_of_sorted {m' : List (Nat × α)} (hs : Sorted m) (hs' : Sorted m')
    (h : ∀ j, get j m = get j m') : m = m' := by
  induction m generalizing m' with
  | nil =>
    cases m' with
    | nil => rfl
    | cons q _ => simpa [get_cons] using h q.1
  | cons p m ih =>
    cases m' with
    | nil => simpa [get_cons] using h p.1
    | cons q m' =>
      obtain ⟨hp, hm⟩ := List.pairwise_cons.mp hs
      obtain ⟨hq, hm'⟩ := List.pairwise_cons.mp hs'
      have key : p.1 = q.1 := by
        rcases Nat.lt_trichotomy p.1 q.1 with lt | e | lt
        · have := h p.1
          rw [get_cons, get_cons, if_pos rfl, if_neg (Nat.ne_of_lt lt)] at this
          have := hq _ (mem_of_get this.symm)
          simp at this; omega
        · exact e
        · have := h q.1
          rw [get_cons, get_cons, if_pos rfl, if_neg (Nat.ne_of_lt lt)] at this
          have := hp _ (mem_of_get this)
          simp at this; omega
      have val : p.2 = q.2 := by
        have := h p.1
        rw [get_cons, get_cons, if_pos rfl, if_pos key] at this
        exact Option.some.inj this
      have none_of_head {l : List (Nat × α)} {r : Nat × α} (hr : ∀ a ∈ l, r.1 < a.1) :
          get r.1 l = none := by
        cases e : get r.1 l with
        | none => rfl
        | some w => exact absurd (hr _ (mem_of_get e)) (by simp)
      rw [Prod.ext key val, ih hm hm' fun j => ?_]
      by_cases hj : j = p.1
      · subst hj
        rw [none_of_head hp, key, none_of_head hq]
      · have := h j
        rwa [get_cons, get_cons, if_neg hj, if_neg (key ▸ hj)] at this

end Sys2Proof.Machine.Assoc
end

