-- ==== Sys2Proof/Laws/Decode.lean ====
section
/-! SUPPORT. The fields of an encoded word, read back one by one (30_encoding.md R91, R92, R103), and what
the decoder answers for each opcode (R95). -/

namespace Sys2Proof

variable (k : Nat) (a b c a2 : Reg) (imm : BitVec 25) (w : Word)

/-- A word shifted up by 28 has only zeros in any slice below bit 28. -/
theorem extract_shift28 (lo n : Nat) (h : lo + n ≤ 28) : (w <<< 28).extractLsb' lo n = 0#n := by
  ext i hi
  simp only [BitVec.getElem_extractLsb', BitVec.getLsbD_shiftLeft, BitVec.getElem_zero]
  simp [show lo + i < 28 by omega]

theorem encodeThree_slice (lo n : Nat) (h : lo + n ≤ 28) :
    (encodeThree k a b c).extractLsb' lo n =
      (regBits a <<< 6).extractLsb' lo n ||| (regBits b <<< 3).extractLsb' lo n |||
        (regBits c).extractLsb' lo n := by
  simp [encodeThree, BitVec.extractLsb'_or, extract_shift28 _ lo n h]

@[simp] theorem fieldA_encodeThree : fieldA (encodeThree k a b c) = a := by
  unfold fieldA
  rw [encodeThree_slice _ _ _ _ _ _ (by decide)]
  have ha : (regBits a <<< 6).extractLsb' 6 3 = BitVec.ofFin a := by revert a; decide
  have hb : (regBits b <<< 3).extractLsb' 6 3 = 0#3 := by revert b; decide
  have hc : (regBits c).extractLsb' 6 3 = 0#3 := by revert c; decide
  rw [ha, hb, hc]
  simp

@[simp] theorem fieldB_encodeThree : fieldB (encodeThree k a b c) = b := by
  unfold fieldB
  rw [encodeThree_slice _ _ _ _ _ _ (by decide)]
  have ha : (regBits a <<< 6).extractLsb' 3 3 = 0#3 := by revert a; decide
  have hb : (regBits b <<< 3).extractLsb' 3 3 = BitVec.ofFin b := by revert b; decide
  have hc : (regBits c).extractLsb' 3 3 = 0#3 := by revert c; decide
  rw [ha, hb, hc]
  simp

@[simp] theorem fieldC_encodeThree : fieldC (encodeThree k a b c) = c := by
  unfold fieldC
  rw [encodeThree_slice _ _ _ _ _ _ (by decide)]
  have ha : (regBits a <<< 6).extractLsb' 0 3 = 0#3 := by revert a; decide
  have hb : (regBits b <<< 3).extractLsb' 0 3 = 0#3 := by revert b; decide
  have hc : (regBits c).extractLsb' 0 3 = BitVec.ofFin c := by revert c; decide
  rw [ha, hb, hc]
  simp

theorem opField_encodeThree : opField (encodeThree k a b c) = BitVec.ofNat 4 k := by
  have ha : (regBits a <<< 6).extractLsb' 28 4 = 0#4 := by revert a; decide
  have hb : (regBits b <<< 3).extractLsb' 28 4 = 0#4 := by revert b; decide
  have hc : (regBits c).extractLsb' 28 4 = 0#4 := by revert c; decide
  unfold opField encodeThree
  rw [BitVec.extractLsb'_or, BitVec.extractLsb'_or, BitVec.extractLsb'_or, ha, hb, hc]
  apply BitVec.eq_of_toNat_eq
  simp [BitVec.toNat_shiftLeft, Nat.shiftRight_eq_div_pow, Nat.shiftLeft_eq]
  omega

theorem opField_encodeImm : opField (encodeImm a2 imm) = 13#4 := by
  have h1 : ((13#32 : Word) <<< 28).extractLsb' 28 4 = 13#4 := by decide
  have ha : (regBits a2 <<< 25).extractLsb' 28 4 = 0#4 := by revert a2; decide
  have hi : (imm.setWidth 32).extractLsb' 28 4 = 0#4 := by
    ext i hi
    simpa using fun _ => imm.getLsbD_of_ge (28 + i) (by omega)
  unfold opField encodeImm
  rw [BitVec.extractLsb'_or, BitVec.extractLsb'_or, h1, ha, hi]
  rfl

@[simp] theorem fieldA2_encodeImm : fieldA2 (encodeImm a2 imm) = a2 := by
  have h1 : ((13#32 : Word) <<< 28).extractLsb' 25 3 = 0#3 := by decide
  have ha : (regBits a2 <<< 25).extractLsb' 25 3 = BitVec.ofFin a2 := by revert a2; decide
  have hi : (imm.setWidth 32).extractLsb' 25 3 = 0#3 := by
    ext i hi
    simp
  unfold fieldA2 encodeImm
  rw [BitVec.extractLsb'_or, BitVec.extractLsb'_or, h1, ha, hi]
  simp

@[simp] theorem fieldImm_encodeImm : fieldImm (encodeImm a2 imm) = imm := by
  have h1 : ((13#32 : Word) <<< 28).extractLsb' 0 25 = 0#25 := by decide
  have ha : (regBits a2 <<< 25).extractLsb' 0 25 = 0#25 := by revert a2; decide
  have hi : (imm.setWidth 32).extractLsb' 0 25 = imm := by
    ext i hi
    simp [show i < 32 by omega, BitVec.getLsbD_eq_getElem hi]
  unfold fieldImm encodeImm
  rw [BitVec.extractLsb'_or, BitVec.extractLsb'_or, h1, ha, hi]
  simp

/-- The masks of the used bits, one per shape. -/
theorem usedBits_values (i : Instr) : usedBits i = 0xF00001FF#32 ∨ usedBits i = 0xF0000000#32 ∨
    usedBits i = 0xF000003F#32 ∨ usedBits i = 0xF0000007#32 ∨ usedBits i = 0xFFFFFFFF#32 := by
  cases i
  case halt => exact .inr (.inl rfl)
  case mapSegment | loadProgram => exact .inr (.inr (.inl rfl))
  case unmapSegment | output | input => exact .inr (.inr (.inr (.inl rfl)))
  case loadValue => exact .inr (.inr (.inr (.inr rfl)))
  all_goals exact .inl rfl

/-- The opcode takes part in decoding for every instruction. -/
theorem usedBits_opcode (i : Instr) : usedBits i &&& 0xF0000000#32 = 0xF0000000#32 := by
  rcases usedBits_values i with h | h | h | h | h <;> rw [h] <;> decide

/-- The sentinel is answered exactly for the opcodes 14 and 15 (R95, R100). -/
theorem decode_eq_error {e : DecodeReject} : decode w = .error e ↔ 14 ≤ (opField w).toNat := by
  have h := (opField w).isLt
  cases e
  unfold decode
  generalize (opField w).toNat = n at h ⊢
  interval_cases n <;> simp

theorem decode_opcode {i : Instr} (h : decode w = .ok i) : (opField w).toNat = i.opcode := by
  unfold decode at h
  split at h <;> simp at h <;> subst h <;> simpa [Instr.opcode]

end Sys2Proof
end

