-- ==== Sys2Proof/Laws/Memory.lean ====
section
/-! SUPPORT. What each operation of the memory segment indexer can do (20_memory.md R52 to R56), said once,
and that every operation keeps the canonical form and the invariants of R32. -/

namespace Sys2Proof.Machine

/-! ### Segments -/

section Segments

variable {g : Segment} {off j n : Nat} {v : Word}

@[simp] theorem Segment.setWord_len : (g.setWord off v).len = g.len := rfl

@[simp] theorem Segment.zeros_len : (Segment.zeros n).len = n := rfl

@[simp] theorem Segment.zeros_word : (Segment.zeros n).word j = 0#32 := rfl

theorem Segment.setWord_word : (g.setWord off v).word j = if j = off then v else g.word j := by
  unfold Segment.word Segment.setWord
  by_cases hv : v = zeroFill
  · by_cases hj : j = off <;> simp [hv, hj, Assoc.get_del]
  · by_cases hj : j = off <;> simp [hv, hj, Assoc.get_put]

theorem Segment.zeros_wf (h : n < Config.lengthLimit) : (Segment.zeros n).wf := by
  simpa [Segment.wf, Segment.zeros, Assoc.Sorted] using h

theorem Segment.setWord_wf (h : g.wf) (ho : off < g.len) : (g.setWord off v).wf := by
  obtain ⟨hl, hs, hc⟩ := h
  unfold Segment.setWord
  by_cases hv : v = zeroFill
  · simp only [hv, if_pos]
    exact ⟨hl, Assoc.sorted_del hs, fun p hp => hc p (Assoc.mem_of_mem_del hp)⟩
  · simp only [hv, if_neg, not_false_eq_true]
    refine ⟨hl, Assoc.sorted_put hs, fun p hp => ?_⟩
    rcases Assoc.mem_put hp with rfl | hp
    · exact ⟨ho, hv⟩
    · exact hc p hp

theorem cellsFrom_ge {ws : List Word} {p : Nat × Word} (h : p ∈ cellsFrom n ws) :
    n ≤ p.1 ∧ p.1 < n + ws.length ∧ p.2 ≠ zeroFill := by
  induction ws generalizing n with
  | nil => simp [cellsFrom] at h
  | cons w ws ih =>
    have tail (h : p ∈ cellsFrom (n + 1) ws) : n ≤ p.1 ∧ p.1 < n + (w :: ws).length ∧ p.2 ≠ zeroFill := by
      obtain ⟨h1, h2, h3⟩ := ih h
      exact ⟨by omega, by simp; omega, h3⟩
    unfold cellsFrom at h
    split at h
    · exact tail h
    · next hw =>
      rcases List.mem_cons.mp h with rfl | h
      · exact ⟨Nat.le_refl _, by simp, hw⟩
      · exact tail h

theorem cellsFrom_sorted {ws : List Word} : Assoc.Sorted (cellsFrom n ws) := by
  induction ws generalizing n with
  | nil => simp [cellsFrom, Assoc.Sorted]
  | cons w ws ih =>
    unfold cellsFrom
    split
    · exact ih
    · exact List.pairwise_cons.mpr ⟨fun p hp => (cellsFrom_ge hp).1, ih⟩

theorem get_cellsFrom {ws : List Word} (h : j < ws.length) :
    (Assoc.get (n + j) (cellsFrom n ws)).getD zeroFill = ws[j] := by
  induction ws generalizing n j with
  | nil => simp at h
  | cons w ws ih =>
    have absent : Assoc.get n (cellsFrom (n + 1) ws) = none := by
      cases e : Assoc.get n (cellsFrom (n + 1) ws) with
      | none => rfl
      | some x => exact absurd (cellsFrom_ge (Assoc.mem_of_get e)).1 (by simp)
    unfold cellsFrom
    cases j with
    | zero =>
      split
      · next hw => simp [absent, hw]
      · simp [Assoc.get_cons]
    | succ j =>
      have e : n + (j + 1) = n + 1 + j := by omega
      have := ih (n := n + 1) (j := j) (by simpa using h)
      split
      · rw [e]; simpa using this
      · rw [Assoc.get_cons, if_neg (by simp), e]; simpa using this

@[simp] theorem Segment.ofWords_len {ws : List Word} : (Segment.ofWords ws).len = ws.length := rfl

theorem Segment.ofWords_word {ws : List Word} (h : j < ws.length) : (Segment.ofWords ws).word j = ws[j] := by
  simpa [Segment.word, Segment.ofWords] using get_cellsFrom (n := 0) h

theorem Segment.ofWords_wf {ws : List Word} (h : ws.length < Config.lengthLimit) : (Segment.ofWords ws).wf :=
  ⟨h, cellsFrom_sorted, fun _ hp => by
    obtain ⟨-, h2, h3⟩ := cellsFrom_ge hp
    exact ⟨by simpa using h2, h3⟩⟩

@[simp] theorem Segment.toWords_length : g.toWords.length = g.len := by simp [Segment.toWords]

theorem Segment.toWords_getElem? : g.toWords[j]? = if j < g.len then some (g.word j) else none := by
  unfold Segment.toWords
  by_cases h : j < g.len <;> simp [h]

/-- A new segment is n words, every one 0 (R54). -/
theorem Segment.zeros_toWords : (Segment.zeros n).toWords = List.replicate n 0#32 := by
  apply List.ext_getElem?
  intro j
  rw [Segment.toWords_getElem?, List.getElem?_replicate]
  rfl

/-- Two canonical segments with the same words are the same data. -/
theorem Segment.ext_of_wf {g' : Segment} (h : g.wf) (h' : g'.wf) (hl : g.len = g'.len)
    (hw : ∀ j < g.len, g.word j = g'.word j) : g = g' := by
  obtain ⟨-, hs, hc⟩ := h
  obtain ⟨-, hs', hc'⟩ := h'
  have cells : g.cells = g'.cells := by
    refine Assoc.ext_of_sorted hs hs' fun j => ?_
    by_cases hj : j < g.len
    · have e := hw j hj
      unfold Segment.word at e
      cases e1 : Assoc.get j g.cells with
      | none =>
        cases e2 : Assoc.get j g'.cells with
        | none => rfl
        | some w => rw [e1, e2] at e; exact absurd e.symm (hc' _ (Assoc.mem_of_get e2)).2
      | some w =>
        cases e2 : Assoc.get j g'.cells with
        | none => rw [e1, e2] at e; exact absurd e (hc _ (Assoc.mem_of_get e1)).2
        | some w' => rw [e1, e2] at e; exact congrArg some e
    · have out {l : List (Nat × Word)} (hl : ∀ p ∈ l, p.1 < g.len) : Assoc.get j l = none := by
        cases e : Assoc.get j l with
        | none => rfl
        | some w => exact absurd (hl _ (Assoc.mem_of_get e)) hj
      rw [out fun p hp => (hc p hp).1, out fun p hp => hl ▸ (hc' p hp).1]
  cases g; cases g'; simp_all

end Segments

/-! ### What the operations answer -/

section Operations

variable {m m' : Memory} {id off v src : Word} {cap : Option Nat} {e : Stop}

theorem Memory.mapped_iff {i : Nat} : m.mapped i = true ↔ ∃ g, m.segment i = some g := by
  simp [Memory.mapped, Option.isSome_iff_exists]

theorem Memory.mapped_eq_false {i : Nat} : m.mapped i = false ↔ m.segment i = none := by
  simp [Memory.mapped]

theorem Memory.len_eq_some {i n : Nat} : m.len i = some n ↔ ∃ g, m.segment i = some g ∧ g.len = n := by
  simp [Memory.len]

theorem Memory.read_eq_ok : m.read id off = .ok v ↔
    ∃ g, m.segment id.toNat = some g ∧ off.toNat < g.len ∧ g.word off.toNat = v := by
  unfold Memory.read
  cases m.segment id.toNat with
  | none => simp
  | some g => by_cases h : off.toNat < g.len <;> simp [h]

theorem Memory.read_eq_error : m.read id off = .error e ↔
    e = .raised .outOfBounds ∧ ∀ n, m.len id.toNat = some n → n ≤ off.toNat := by
  unfold Memory.read Memory.len
  cases m.segment id.toNat with
  | none => simp [eq_comm]
  | some g =>
    by_cases h : off.toNat < g.len
    · simp [h]
    · simpa [h, eq_comm] using fun _ => Nat.le_of_not_lt h

theorem Memory.write_eq_ok : m.write id off v = .ok m' ↔
    ∃ g, m.segment id.toNat = some g ∧ off.toNat < g.len ∧
      m' = { m with seg := Assoc.put id.toNat (g.setWord off.toNat v) m.seg } := by
  unfold Memory.write
  cases m.segment id.toNat with
  | none => simp
  | some g => by_cases h : off.toNat < g.len <;> simp [h, eq_comm]

theorem Memory.write_eq_error : m.write id off v = .error e ↔
    e = .raised .outOfBounds ∧ ∀ n, m.len id.toNat = some n → n ≤ off.toNat := by
  unfold Memory.write Memory.len
  cases m.segment id.toNat with
  | none => simp [eq_comm]
  | some g =>
    by_cases h : off.toNat < g.len
    · simp [h]
    · simpa [h, eq_comm] using fun _ => Nat.le_of_not_lt h

theorem Memory.within_eq_ok : Memory.within cap m = .ok m' ↔ fits cap m.words = true ∧ m' = m := by
  unfold Memory.within
  by_cases h : fits cap m.words = true <;> simp [h, eq_comm]

theorem Memory.within_eq_error : Memory.within cap m = .error e ↔
    fits cap m.words = false ∧ e = .refused .resourceExhausted := by
  unfold Memory.within
  by_cases h : fits cap m.words = true <;> simp [h, eq_comm]

/-- The selection is the head of a queue that is not empty, or `nid` when the queue is empty (R54). -/
theorem Memory.pick_eq_some {i n : Nat} {l : List Nat} : m.pick = some (i, l, n) ↔
    (m.free = i :: l ∧ n = m.nid) ∨
      (m.free = [] ∧ m.nid < Config.identLimit ∧ i = m.nid ∧ l = [] ∧ n = m.nid + 1) := by
  unfold Memory.pick
  cases hf : m.free with
  | nil => by_cases h : m.nid < Config.identLimit <;> simp_all [eq_comm]
  | cons a as => simp [eq_comm, and_assoc]

theorem Memory.pick_eq_none : m.pick = none ↔ m.free = [] ∧ Config.identLimit ≤ m.nid := by
  unfold Memory.pick
  cases hf : m.free with
  | nil => by_cases h : m.nid < Config.identLimit <;> simp_all
  | cons a as => simp

theorem Memory.allocate_eq_ok {n : Word} {i : Nat} : m.allocate cap n = .ok (i, m') ↔
    ∃ free nid, m.pick = some (i, free, nid) ∧ fits cap m'.words = true ∧
      m' = { seg := Assoc.put i (Segment.zeros n.toNat) m.seg, free := free, nid := nid } := by
  unfold Memory.allocate
  cases hp : m.pick with
  | none => simp
  | some p =>
    obtain ⟨j, l, k⟩ := p
    simp only [Memory.within, Option.some.injEq, Prod.mk.injEq]
    split
    · constructor
      · intro h
        simp only [Except.map, Except.ok.injEq, Prod.mk.injEq] at h
        obtain ⟨rfl, rfl⟩ := h
        exact ⟨l, k, ⟨rfl, rfl, rfl⟩, by assumption, rfl⟩
      · rintro ⟨_, _, ⟨rfl, rfl, rfl⟩, -, rfl⟩
        rfl
    · constructor
      · intro h; simp [Except.map] at h
      · rintro ⟨_, _, ⟨rfl, rfl, rfl⟩, h, rfl⟩
        contradiction

theorem Memory.allocate_eq_error {n : Word} : m.allocate cap n = .error e ↔
    e = .refused .resourceExhausted ∧ (m.pick = none ∨ ∃ i free nid, m.pick = some (i, free, nid) ∧
      fits cap (Memory.words
        { seg := Assoc.put i (Segment.zeros n.toNat) m.seg, free := free, nid := nid }) = false) := by
  unfold Memory.allocate
  cases hp : m.pick with
  | none => simp [@eq_comm _ _ e]
  | some p =>
    obtain ⟨j, l, k⟩ := p
    simp only [Memory.within, Option.some.injEq, Prod.mk.injEq]
    split
    · next h =>
      constructor
      · intro h; simp [Except.map] at h
      · rintro ⟨-, h' | ⟨_, _, _, ⟨rfl, rfl, rfl⟩, h'⟩⟩
        · simp at h'
        · simp [h] at h'
    · next h =>
      constructor
      · intro h'
        exact ⟨by simpa [Except.map, eq_comm] using h', .inr ⟨j, l, k, ⟨rfl, rfl, rfl⟩, by simpa using h⟩⟩
      · rintro ⟨rfl, -⟩; rfl

theorem Memory.deallocate_eq_ok : m.deallocate id = .ok m' ↔
    id ≠ 0#32 ∧ m.mapped id.toNat = true ∧
      m' = { m with seg := Assoc.del id.toNat m.seg, free := m.free ++ [id.toNat] } := by
  unfold Memory.deallocate
  by_cases h0 : id = 0#32
  · simp [h0]
  · cases hm : m.mapped id.toNat <;> simp [h0, @eq_comm _ _ m']

theorem Memory.deallocate_eq_error : m.deallocate id = .error e ↔
    e = .raised .invalidDeallocation ∧ (id = 0#32 ∨ m.mapped id.toNat = false) := by
  unfold Memory.deallocate
  by_cases h0 : id = 0#32
  · simp [h0, @eq_comm _ _ e]
  · cases hm : m.mapped id.toNat <;> simp [h0, @eq_comm _ _ e]

theorem Memory.duplicateIntoZero_eq_ok : m.duplicateIntoZero cap src = .ok m' ↔
    ∃ g, m.segment src.toNat = some g ∧ ((src = 0#32 ∧ m' = m) ∨
      (src ≠ 0#32 ∧ fits cap m'.words = true ∧ m' = { m with seg := Assoc.put 0 g m.seg })) := by
  unfold Memory.duplicateIntoZero
  cases m.segment src.toNat with
  | none => simp
  | some g =>
    by_cases h : src = 0#32
    · simp [h, @eq_comm _ _ m']
    · simp only [h, if_false, Memory.within_eq_ok]
      constructor
      · rintro ⟨h1, rfl⟩
        exact ⟨g, rfl, .inr ⟨h, h1, rfl⟩⟩
      · rintro ⟨_, e, h' | ⟨-, h1, rfl⟩⟩
        · exact absurd h'.1 id
        · cases e; exact ⟨h1, rfl⟩

theorem Memory.duplicateIntoZero_eq_error : m.duplicateIntoZero cap src = .error e ↔
    (m.mapped src.toNat = false ∧ e = .raised .outOfBounds) ∨
      (src ≠ 0#32 ∧ e = .refused .resourceExhausted ∧ ∃ g, m.segment src.toNat = some g ∧
        fits cap (Memory.words { m with seg := Assoc.put 0 g m.seg }) = false) := by
  unfold Memory.duplicateIntoZero Memory.mapped
  cases m.segment src.toNat with
  | none => simp [@eq_comm _ _ e]
  | some g =>
    by_cases h : src = 0#32
    · simp [h]
    · simp [h, Memory.within_eq_error, and_comm]

/-! ### What every identifier's segment is afterwards -/

theorem Memory.segment_put {l : List Nat} {n i j : Nat} {g : Segment} :
    (Memory.mk (Assoc.put i g m.seg) l n).segment j = if j = i then some g else m.segment j :=
  Assoc.get_put

theorem Memory.segment_del {l : List Nat} {n i j : Nat} :
    (Memory.mk (Assoc.del i m.seg) l n).segment j = if j = i then none else m.segment j :=
  Assoc.get_del

/-- MemWrite changes one word of one segment and nothing else (R53, R59). -/
theorem Memory.write_read (h : m.write id off v = .ok m') (id' off' : Word) :
    m'.read id' off' = if id' = id ∧ off' = off then .ok v else m.read id' off' := by
  obtain ⟨g, hg, ho, rfl⟩ := Memory.write_eq_ok.mp h
  unfold Memory.read
  rw [Memory.segment_put]
  by_cases hi : id' = id
  · subst hi
    simp only [if_true, hg, Segment.setWord_len, Segment.setWord_word, true_and, ← BitVec.toNat_inj]
    by_cases hj : off'.toNat = off.toNat
    · simp [hj, ho]
    · simp [hj]
  · have : id'.toNat ≠ id.toNat := fun e => hi (BitVec.toNat_inj.mp e)
    simp [hi, this]

theorem Memory.write_len (h : m.write id off v = .ok m') (i : Nat) : m'.len i = m.len i := by
  obtain ⟨g, hg, -, rfl⟩ := Memory.write_eq_ok.mp h
  unfold Memory.len
  rw [Memory.segment_put]
  split
  · next e => subst e; simp [hg]
  · rfl

theorem Memory.contents_eq_some {i : Nat} {ws : List Word} :
    m.contents i = some ws ↔ ∃ g, m.segment i = some g ∧ g.toWords = ws := by
  simp [Memory.contents]

/-- MemWrite leaves what every other segment holds as it was (R53). -/
theorem Memory.write_contents_other {j : Nat} (h : m.write id off v = .ok m') (hj : j ≠ id.toNat) :
    m'.contents j = m.contents j := by
  obtain ⟨g, hg, -, rfl⟩ := Memory.write_eq_ok.mp h
  unfold Memory.contents
  rw [Memory.segment_put, if_neg hj]

/-- With an identifier queued and no bound on storage, Allocate answers the one at the head (R54). -/
theorem Memory.allocate_of_queued {i : Nat} {rest : List Nat} (n : Word) (h : m.free = i :: rest) :
    m.allocate none n =
      .ok (i, { seg := Assoc.put i (Segment.zeros n.toNat) m.seg, free := rest, nid := m.nid }) :=
  Memory.allocate_eq_ok.mpr ⟨rest, m.nid, by simp [Memory.pick, h], rfl, rfl⟩

theorem fits_eq_false {n : Nat} : fits cap n = false ↔ ∃ c, cap = some c ∧ c < n := by
  unfold fits
  cases cap <;> simp

/-- A new segment adds its length to the words in use. -/
theorem Memory.words_put_new {g : Segment} {l : List Nat} {i k : Nat} (h : m.mapped i = false) :
    (Memory.mk (Assoc.put i g m.seg) l k).words = g.len + m.words :=
  Assoc.sum_put_new (fun p : Nat × Segment => p.2.len) (Memory.mapped_eq_false.mp h)

/-- A segment put in another's place exchanges the lengths in the words in use. -/
theorem Memory.words_put_old {g g' : Segment} {l : List Nat} {i k : Nat} (hs : Assoc.Sorted m.seg)
    (h : m.segment i = some g') : (Memory.mk (Assoc.put i g m.seg) l k).words + g'.len = g.len + m.words :=
  Assoc.sum_put_old (fun p : Nat × Segment => p.2.len) hs h

theorem Memory.mapped_eq_len (i : Nat) : m.mapped i = (m.len i).isSome := by
  simp [Memory.mapped, Memory.len]

end Operations

/-! ### The canonical form and the invariants -/

section Invariants

variable {m m' : Memory} {id off v src n : Word} {cap : Option Nat}

theorem Memory.wf_put {g : Segment} {l : List Nat} {i k : Nat} (h : m.wf) (hg : g.wf) :
    (Memory.mk (Assoc.put i g m.seg) l k).wf := by
  refine ⟨Assoc.sorted_put h.1, fun p hp => ?_⟩
  rcases Assoc.mem_put hp with rfl | hp
  · exact hg
  · exact h.2 p hp

theorem Memory.wf_segment {g : Segment} {i : Nat} (h : m.wf) (hg : m.segment i = some g) : g.wf :=
  h.2 _ (Assoc.mem_of_get hg)

theorem Memory.write_wf (h : m.wf) (hw : m.write id off v = .ok m') : m'.wf := by
  obtain ⟨g, hg, ho, rfl⟩ := Memory.write_eq_ok.mp hw
  exact Memory.wf_put h (Segment.setWord_wf (Memory.wf_segment h hg) ho)

theorem Memory.allocate_wf {i : Nat} (h : m.wf) (ha : m.allocate cap n = .ok (i, m')) : m'.wf := by
  obtain ⟨_, _, -, -, rfl⟩ := Memory.allocate_eq_ok.mp ha
  exact Memory.wf_put h (Segment.zeros_wf n.isLt)

theorem Memory.deallocate_wf (h : m.wf) (hd : m.deallocate id = .ok m') : m'.wf := by
  obtain ⟨-, -, rfl⟩ := Memory.deallocate_eq_ok.mp hd
  exact ⟨Assoc.sorted_del h.1, fun p hp => h.2 p (Assoc.mem_of_mem_del hp)⟩

theorem Memory.duplicateIntoZero_wf (h : m.wf) (hd : m.duplicateIntoZero cap src = .ok m') : m'.wf := by
  obtain ⟨g, hg, ⟨-, rfl⟩ | ⟨-, -, rfl⟩⟩ := Memory.duplicateIntoZero_eq_ok.mp hd
  · exact h
  · exact Memory.wf_put h (Memory.wf_segment h hg)

theorem Memory.placeWord_wf {i : Nat} {w : Word} (h : m.wf) (hi : i + 1 < Config.lengthLimit) :
    (m.placeWord i w).wf := by
  unfold Memory.placeWord
  refine Memory.wf_put h (Segment.setWord_wf (g := ⟨_, _⟩) ?_ ?_)
  · cases hg : m.segment 0 with
    | none => simpa [Segment.wf, Segment.zeros, Assoc.Sorted] using hi
    | some g =>
      obtain ⟨hl, hs, hc⟩ := Memory.wf_segment h hg
      refine ⟨by simpa using ⟨hl, hi⟩, hs, fun p hp => ⟨?_, (hc p hp).2⟩⟩
      exact Nat.lt_of_lt_of_le (hc p hp).1 (Nat.le_max_left _ _)
  · show i < max _ (i + 1)
    omega

theorem reset_mem_wf : State.reset.mem.wf := by decide

theorem Memory.mapped_lt (h : m.Inv) {i : Nat} (hm : m.mapped i = true) : i < m.nid := by
  obtain ⟨g, hg⟩ := Memory.mapped_iff.mp hm
  exact h.2.2.2.2.2.1 _ (Assoc.mem_of_get hg)

theorem Memory.zero_not_free (h : m.Inv) : 0 ∉ m.free := fun h0 => by
  have := h.2.2.1 0 h0
  rw [h.2.1] at this
  cases this

theorem Memory.mapped_put {l : List Nat} {k i j : Nat} {g : Segment} :
    (Memory.mk (Assoc.put i g m.seg) l k).mapped j = if j = i then true else m.mapped j := by
  unfold Memory.mapped
  rw [Memory.segment_put]
  split <;> rfl

theorem Memory.mapped_del {l : List Nat} {k i j : Nat} :
    (Memory.mk (Assoc.del i m.seg) l k).mapped j = if j = i then false else m.mapped j := by
  unfold Memory.mapped
  rw [Memory.segment_del]
  split <;> rfl

/-- Putting a segment at an identifier that is already mapped keeps the invariants. -/
theorem Memory.inv_put_mapped {g : Segment} {i : Nat} (h : m.Inv) (hg : g.wf) (hm : m.mapped i = true) :
    ({ m with seg := Assoc.put i g m.seg } : Memory).Inv := by
  have same : ∀ j, ({ m with seg := Assoc.put i g m.seg } : Memory).mapped j = m.mapped j := fun j => by
    rw [Memory.mapped_put]; split
    · next e => rw [e, hm]
    · rfl
  refine ⟨Memory.wf_put h.1 hg, by rw [same]; exact h.2.1, fun j hj => by rw [same]; exact h.2.2.1 j hj,
    h.2.2.2.1, fun j hj => by rw [same]; exact h.2.2.2.2.1 j hj, fun p hp => ?_, h.2.2.2.2.2.2.1,
    h.2.2.2.2.2.2.2⟩
  rcases Assoc.mem_put hp with rfl | hp
  · exact Memory.mapped_lt h hm
  · exact h.2.2.2.2.2.1 p hp

theorem Memory.write_inv (h : m.Inv) (hw : m.write id off v = .ok m') : m'.Inv := by
  obtain ⟨g, hg, ho, rfl⟩ := Memory.write_eq_ok.mp hw
  exact Memory.inv_put_mapped h (Segment.setWord_wf (Memory.wf_segment h.1 hg) ho)
    (Memory.mapped_iff.mpr ⟨g, hg⟩)

theorem Memory.duplicateIntoZero_inv (h : m.Inv) (hd : m.duplicateIntoZero cap src = .ok m') : m'.Inv := by
  obtain ⟨g, hg, ⟨-, rfl⟩ | ⟨-, -, rfl⟩⟩ := Memory.duplicateIntoZero_eq_ok.mp hd
  · exact h
  · exact Memory.inv_put_mapped h (Memory.wf_segment h.1 hg) h.2.1

theorem Memory.deallocate_inv (h : m.Inv) (hd : m.deallocate id = .ok m') : m'.Inv := by
  have hwf := Memory.deallocate_wf h.1 hd
  obtain ⟨h0, hm, rfl⟩ := Memory.deallocate_eq_ok.mp hd
  have hlt := Memory.mapped_lt h hm
  obtain ⟨-, z, fu, nd, all, segLt, freeLt, bound⟩ := h
  have hz : (0 : Nat) ≠ id.toNat := fun e => h0 (BitVec.toNat_inj.mp e.symm)
  refine ⟨hwf, ?_, ?_, ?_, ?_, fun p hp => segLt p (Assoc.mem_of_mem_del hp), ?_, bound⟩
  · rw [Memory.mapped_del, if_neg hz, z]
  · intro j hj
    rw [Memory.mapped_del]
    split
    · rfl
    · next ne =>
      rcases List.mem_append.mp hj with hj | hj
      · exact fu j hj
      · exact absurd (List.mem_singleton.mp hj) ne
  · refine List.nodup_append.mpr ⟨nd, List.nodup_singleton _, fun a ha b hb e => ?_⟩
    rw [List.mem_singleton.mp hb] at e
    subst e
    rw [fu _ ha] at hm
    cases hm
  · intro j hj
    rw [Memory.mapped_del]
    by_cases e : j = id.toNat
    · exact .inr (List.mem_append.mpr (.inr (List.mem_singleton.mpr e)))
    · rw [if_neg e]
      exact (all j hj).imp_right fun hf => List.mem_append.mpr (.inl hf)
  · intro j hj
    rcases List.mem_append.mp hj with hj | hj
    · exact freeLt j hj
    · rw [List.mem_singleton.mp hj]; exact hlt

/-- The selected identifier was unmapped, is not 0 and fits 32 bits (R54). -/
theorem Memory.pick_fresh {i k : Nat} {l : List Nat} (h : m.Inv) (hp : m.pick = some (i, l, k)) :
    m.mapped i = false ∧ i ≠ 0 ∧ i < Config.identLimit := by
  rcases Memory.pick_eq_some.mp hp with ⟨hf, rfl⟩ | ⟨hf, hn, rfl, rfl, rfl⟩
  · have hi : i ∈ m.free := by simp [hf]
    exact ⟨h.2.2.1 i hi, fun e => Memory.zero_not_free h (e ▸ hi),
      Nat.lt_of_lt_of_le (h.2.2.2.2.2.2.1 i hi) h.2.2.2.2.2.2.2⟩
  · refine ⟨?_, ?_, hn⟩
    · cases e : m.mapped m.nid with
      | false => rfl
      | true => exact absurd (Memory.mapped_lt h e) (Nat.lt_irrefl _)
    · have := Memory.mapped_lt h h.2.1
      omega

theorem Memory.allocate_inv {i : Nat} (h : m.Inv) (ha : m.allocate cap n = .ok (i, m')) : m'.Inv := by
  have hwf := Memory.allocate_wf h.1 ha
  obtain ⟨l, k, hp, -, rfl⟩ := Memory.allocate_eq_ok.mp ha
  obtain ⟨-, hi0, -⟩ := Memory.pick_fresh h hp
  obtain ⟨-, z, fu, nd, all, segLt, freeLt, bound⟩ := h
  have zero : (Memory.mk (Assoc.put i (Segment.zeros n.toNat) m.seg) l k).mapped 0 = true := by
    rw [Memory.mapped_put, if_neg (Ne.symm hi0), z]
  rcases Memory.pick_eq_some.mp hp with ⟨hf, rfl⟩ | ⟨hf, hn, rfl, rfl, rfl⟩
  · rw [hf] at nd fu all freeLt
    obtain ⟨hil, nd⟩ := List.nodup_cons.mp nd
    refine ⟨hwf, zero, fun j hj => ?_, nd, fun j hj => ?_, fun p hp => ?_,
      fun j hj => freeLt j (List.mem_cons_of_mem _ hj), bound⟩
    · have ne : j ≠ i := fun e => hil (e ▸ hj)
      rw [Memory.mapped_put, if_neg ne]
      exact fu j (List.mem_cons_of_mem _ hj)
    · rw [Memory.mapped_put]
      split
      · exact .inl rfl
      · next ne =>
        refine (all j hj).imp_right fun hf => ?_
        rcases List.mem_cons.mp hf with e | hf
        · exact absurd e ne
        · exact hf
    · rcases Assoc.mem_put hp with rfl | hp
      · exact freeLt i List.mem_cons_self
      · exact segLt p hp
  · refine ⟨hwf, zero, fun j hj => by simp at hj, List.nodup_nil, fun j hj => .inl ?_, fun p hp => ?_,
      fun j hj => by simp at hj, hn⟩
    · rw [Memory.mapped_put]
      split
      · rfl
      · next ne => simpa [hf] using all j (by dsimp only at hj; omega)
    · rcases Assoc.mem_put hp with rfl | hp
      · exact Nat.lt_succ_self _
      · exact Nat.lt_succ_of_lt (segLt p hp)

end Invariants

end Sys2Proof.Machine
end

