-- ==== Sys2Proof/Laws/PerInstr.lean ====
section
/-! SUPPORT. The facts about every instruction as syntax, one lemma per constructor: its canonical word has
its opcode in bits 31:28 (30_encoding.md R94, R103), and an assembler accepts the line that writes it and
gives that word (R104). -/

namespace Sys2Proof.Laws

namespace OpcodeField

/-- The canonical word's opcode field holds the instruction's opcode. -/
def Statement (i : Instr) : Prop := (opField (encode i)).toNat = i.opcode

variable (a b c : Reg) (imm : BitVec 25)

theorem conditionalMove : Statement (.conditionalMove a b c) := by
  simp [Statement, encode, opField_encodeThree, Instr.opcode]
theorem segmentedLoad : Statement (.segmentedLoad a b c) := by
  simp [Statement, encode, opField_encodeThree, Instr.opcode]
theorem segmentedStore : Statement (.segmentedStore a b c) := by
  simp [Statement, encode, opField_encodeThree, Instr.opcode]
theorem add : Statement (.add a b c) := by simp [Statement, encode, opField_encodeThree, Instr.opcode]
theorem multiply : Statement (.multiply a b c) := by simp [Statement, encode, opField_encodeThree, Instr.opcode]
theorem divide : Statement (.divide a b c) := by simp [Statement, encode, opField_encodeThree, Instr.opcode]
theorem nand : Statement (.nand a b c) := by simp [Statement, encode, opField_encodeThree, Instr.opcode]
theorem halt : Statement .halt := by simp [Statement, encode, opField_encodeThree, Instr.opcode]
theorem mapSegment : Statement (.mapSegment b c) := by
  simp [Statement, encode, opField_encodeThree, Instr.opcode]
theorem unmapSegment : Statement (.unmapSegment c) := by
  simp [Statement, encode, opField_encodeThree, Instr.opcode]
theorem output : Statement (.output c) := by simp [Statement, encode, opField_encodeThree, Instr.opcode]
theorem input : Statement (.input c) := by simp [Statement, encode, opField_encodeThree, Instr.opcode]
theorem loadProgram : Statement (.loadProgram b c) := by
  simp [Statement, encode, opField_encodeThree, Instr.opcode]
theorem loadValue : Statement (.loadValue a imm) := by
  simp [Statement, encode, opField_encodeImm, Instr.opcode]

end OpcodeField

theorem regOf_val (r : Reg) : regOf r.val = r := by
  simp [regOf]

theorem reg_le (r : Reg) : r.val ≤ 7 := by omega

namespace AssembledLine

/-- An assembler accepts the line that writes an instruction, and gives its canonical word (R103, R104). -/
def Statement (i : Instr) : Prop := i.wellFormed = true ∧ assemble i.line = some (encode i)

variable (a b c : Reg) (imm : BitVec 25)

theorem three (m : Mnemonic) (hm : m.arity = 3) (hl : m.immOk none = true) :
    (Line.op m [a.val, b.val, c.val] none).wellFormed = true := by
  simp [Line.wellFormed, hm, hl, reg_le]

theorem conditionalMove : Statement (.conditionalMove a b c) := by
  have h := three a b c .cmov rfl rfl
  exact ⟨h, by simp [assemble, Instr.line, h, instrOf, regOf_val]⟩
theorem segmentedLoad : Statement (.segmentedLoad a b c) := by
  have h := three a b c .sload rfl rfl
  exact ⟨h, by simp [assemble, Instr.line, h, instrOf, regOf_val]⟩
theorem segmentedStore : Statement (.segmentedStore a b c) := by
  have h := three a b c .sstore rfl rfl
  exact ⟨h, by simp [assemble, Instr.line, h, instrOf, regOf_val]⟩
theorem add : Statement (.add a b c) := by
  have h := three a b c .add rfl rfl
  exact ⟨h, by simp [assemble, Instr.line, h, instrOf, regOf_val]⟩
theorem multiply : Statement (.multiply a b c) := by
  have h := three a b c .mul rfl rfl
  exact ⟨h, by simp [assemble, Instr.line, h, instrOf, regOf_val]⟩
theorem divide : Statement (.divide a b c) := by
  have h := three a b c .div rfl rfl
  exact ⟨h, by simp [assemble, Instr.line, h, instrOf, regOf_val]⟩
theorem nand : Statement (.nand a b c) := by
  have h := three a b c .nand rfl rfl
  exact ⟨h, by simp [assemble, Instr.line, h, instrOf, regOf_val]⟩
theorem halt : Statement .halt := ⟨rfl, rfl⟩
theorem mapSegment : Statement (.mapSegment b c) := by
  have h : (Line.op .map [b.val, c.val] none).wellFormed = true := by
    simp [Line.wellFormed, Mnemonic.arity, Mnemonic.immOk, reg_le]
  exact ⟨h, by simp [assemble, Instr.line, h, instrOf, regOf_val]⟩
theorem loadProgram : Statement (.loadProgram b c) := by
  have h : (Line.op .loadp [b.val, c.val] none).wellFormed = true := by
    simp [Line.wellFormed, Mnemonic.arity, Mnemonic.immOk, reg_le]
  exact ⟨h, by simp [assemble, Instr.line, h, instrOf, regOf_val]⟩
theorem unmapSegment : Statement (.unmapSegment c) := by
  have h : (Line.op .unmap [c.val] none).wellFormed = true := by
    simp [Line.wellFormed, Mnemonic.arity, Mnemonic.immOk, reg_le]
  exact ⟨h, by simp [assemble, Instr.line, h, instrOf, regOf_val]⟩
theorem output : Statement (.output c) := by
  have h : (Line.op .out [c.val] none).wellFormed = true := by
    simp [Line.wellFormed, Mnemonic.arity, Mnemonic.immOk, reg_le]
  exact ⟨h, by simp [assemble, Instr.line, h, instrOf, regOf_val]⟩
theorem input : Statement (.input c) := by
  have h : (Line.op .inp [c.val] none).wellFormed = true := by
    simp [Line.wellFormed, Mnemonic.arity, Mnemonic.immOk, reg_le]
  exact ⟨h, by simp [assemble, Instr.line, h, instrOf, regOf_val]⟩
theorem loadValue : Statement (.loadValue a imm) := by
  have hi := imm.isLt
  have h : (Line.op .lv [a.val] (some imm.toNat)).wellFormed = true := by
    simp [Line.wellFormed, Mnemonic.arity, Mnemonic.immOk, reg_le]
    omega
  exact ⟨h, by simp [assemble, Instr.line, h, instrOf, regOf_val]⟩

end AssembledLine

end Sys2Proof.Laws
end

