-- ==== Sys2Proof/Laws/State.lean ====
section
/-! SUPPORT. One lemma per field per update of State, so that no proof unfolds a record update, and the laws
of reading a register after an update. -/

namespace Sys2Proof.Machine

variable (s : State) (r q : Reg) (v t : Word) (m : Memory) (k : FaultKind) (b : Byte)

@[simp] theorem State.setReg_x : (s.setReg r v).x = s.x.set r.val v := rfl
@[simp] theorem State.setReg_pc : (s.setReg r v).pc = s.pc := rfl
@[simp] theorem State.setReg_mem : (s.setReg r v).mem = s.mem := rfl
@[simp] theorem State.setReg_status : (s.setReg r v).status = s.status := rfl
@[simp] theorem State.setReg_out : (s.setReg r v).out = s.out := rfl
@[simp] theorem State.setReg_inpos : (s.setReg r v).inpos = s.inpos := rfl
@[simp] theorem State.setReg_input : (s.setReg r v).input = s.input := rfl
@[simp] theorem State.setReg_capacity : (s.setReg r v).capacity = s.capacity := rfl

@[simp] theorem State.setPc_x : (s.setPc t).x = s.x := rfl
@[simp] theorem State.setPc_pc : (s.setPc t).pc = t := rfl
@[simp] theorem State.setPc_mem : (s.setPc t).mem = s.mem := rfl
@[simp] theorem State.setPc_status : (s.setPc t).status = s.status := rfl
@[simp] theorem State.setPc_out : (s.setPc t).out = s.out := rfl
@[simp] theorem State.setPc_inpos : (s.setPc t).inpos = s.inpos := rfl
@[simp] theorem State.setPc_input : (s.setPc t).input = s.input := rfl
@[simp] theorem State.setPc_capacity : (s.setPc t).capacity = s.capacity := rfl

@[simp] theorem State.advance_x : s.advance.x = s.x := rfl
@[simp] theorem State.advance_pc : s.advance.pc = s.pc + 1 := rfl
@[simp] theorem State.advance_mem : s.advance.mem = s.mem := rfl
@[simp] theorem State.advance_status : s.advance.status = s.status := rfl
@[simp] theorem State.advance_out : s.advance.out = s.out := rfl
@[simp] theorem State.advance_inpos : s.advance.inpos = s.inpos := rfl
@[simp] theorem State.advance_input : s.advance.input = s.input := rfl
@[simp] theorem State.advance_capacity : s.advance.capacity = s.capacity := rfl

@[simp] theorem State.setMem_x : (s.setMem m).x = s.x := rfl
@[simp] theorem State.setMem_pc : (s.setMem m).pc = s.pc := rfl
@[simp] theorem State.setMem_mem : (s.setMem m).mem = m := rfl
@[simp] theorem State.setMem_status : (s.setMem m).status = s.status := rfl
@[simp] theorem State.setMem_out : (s.setMem m).out = s.out := rfl
@[simp] theorem State.setMem_inpos : (s.setMem m).inpos = s.inpos := rfl
@[simp] theorem State.setMem_input : (s.setMem m).input = s.input := rfl
@[simp] theorem State.setMem_capacity : (s.setMem m).capacity = s.capacity := rfl

@[simp] theorem State.raise_x : (s.raise k).x = s.x := rfl
@[simp] theorem State.raise_pc : (s.raise k).pc = s.pc := rfl
@[simp] theorem State.raise_mem : (s.raise k).mem = s.mem := rfl
@[simp] theorem State.raise_status : (s.raise k).status = .faulted k := rfl
@[simp] theorem State.raise_out : (s.raise k).out = s.out := rfl
@[simp] theorem State.raise_inpos : (s.raise k).inpos = s.inpos := rfl
@[simp] theorem State.raise_input : (s.raise k).input = s.input := rfl
@[simp] theorem State.raise_capacity : (s.raise k).capacity = s.capacity := rfl

@[simp] theorem State.halt_x : s.halt.x = s.x := rfl
@[simp] theorem State.halt_pc : s.halt.pc = s.pc := rfl
@[simp] theorem State.halt_mem : s.halt.mem = s.mem := rfl
@[simp] theorem State.halt_status : s.halt.status = .halted := rfl
@[simp] theorem State.halt_out : s.halt.out = s.out := rfl
@[simp] theorem State.halt_inpos : s.halt.inpos = s.inpos := rfl
@[simp] theorem State.halt_input : s.halt.input = s.input := rfl
@[simp] theorem State.halt_capacity : s.halt.capacity = s.capacity := rfl

@[simp] theorem State.emit_x : (s.emit b).x = s.x := rfl
@[simp] theorem State.emit_pc : (s.emit b).pc = s.pc := rfl
@[simp] theorem State.emit_mem : (s.emit b).mem = s.mem := rfl
@[simp] theorem State.emit_status : (s.emit b).status = s.status := rfl
@[simp] theorem State.emit_out : (s.emit b).out = s.out ++ [b] := rfl
@[simp] theorem State.emit_inpos : (s.emit b).inpos = s.inpos := rfl
@[simp] theorem State.emit_input : (s.emit b).input = s.input := rfl
@[simp] theorem State.emit_capacity : (s.emit b).capacity = s.capacity := rfl

@[simp] theorem State.consume_x : s.consume.x = s.x := rfl
@[simp] theorem State.consume_pc : s.consume.pc = s.pc := rfl
@[simp] theorem State.consume_mem : s.consume.mem = s.mem := rfl
@[simp] theorem State.consume_status : s.consume.status = s.status := rfl
@[simp] theorem State.consume_out : s.consume.out = s.out := rfl
@[simp] theorem State.consume_inpos : s.consume.inpos = s.inpos + 1 := rfl
@[simp] theorem State.consume_input : s.consume.input = s.input := rfl
@[simp] theorem State.consume_capacity : s.consume.capacity = s.capacity := rfl

@[simp] theorem State.setPc_reg : (s.setPc t).reg r = s.reg r := rfl
@[simp] theorem State.advance_reg : s.advance.reg r = s.reg r := rfl
@[simp] theorem State.setMem_reg : (s.setMem m).reg r = s.reg r := rfl
@[simp] theorem State.raise_reg : (s.raise k).reg r = s.reg r := rfl
@[simp] theorem State.halt_reg : s.halt.reg r = s.reg r := rfl
@[simp] theorem State.emit_reg : (s.emit b).reg r = s.reg r := rfl
@[simp] theorem State.consume_reg : s.consume.reg r = s.reg r := rfl

@[simp] theorem State.setReg_reg_same : (s.setReg r v).reg r = v := by
  simp [State.reg]

@[simp] theorem State.setReg_reg_other (h : q ≠ r) : (s.setReg r v).reg q = s.reg q := by
  simp [State.reg, Fin.val_ne_of_ne h.symm]

theorem State.setReg_reg : (s.setReg r v).reg q = if q = r then v else s.reg q := by
  by_cases h : q = r
  · subst h; simp
  · simp [h]

/-- Two states with the same registers, read one by one, have the same register file. -/
theorem State.x_ext {s s' : State} (h : ∀ r, s.reg r = s'.reg r) : s.x = s'.x :=
  Vector.ext fun i hi => h ⟨i, hi⟩

/-- Two states are equal when their registers, read one by one, and their other fields are. -/
theorem State.ext_reg {s s' : State} (x : ∀ r, s.reg r = s'.reg r) (pc : s.pc = s'.pc) (mem : s.mem = s'.mem)
    (status : s.status = s'.status) (out : s.out = s'.out) (inpos : s.inpos = s'.inpos)
    (input : s.input = s'.input) (capacity : s.capacity = s'.capacity) : s = s' := by
  have := State.x_ext x
  cases s; cases s'; simp_all

/-- Of two writes to one register the second stands. -/
@[simp] theorem State.setReg_setReg (w : Word) : (s.setReg r v).setReg r w = s.setReg r w := by
  simp [State.setReg]

/-- Writes to two registers commute. -/
theorem State.setReg_comm (w : Word) (h : q ≠ r) : (s.setReg q w).setReg r v = (s.setReg r v).setReg q w := by
  simp only [State.setReg]
  rw [Vector.set_comm _ _ fun e => h (Fin.ext e)]

@[simp] theorem State.setMem_setMem (m' : Memory) : (s.setMem m).setMem m' = s.setMem m' := rfl

@[simp] theorem State.setMem_self : s.setMem s.mem = s := rfl

/-- A listed answer of an oracle (R193). -/
theorem Oracle.answer_of_lt {o : Oracle} {n : Nat} (h : n < o.listed.length) : o.answer n = o.listed[n] := by
  simp [Oracle.answer, h]

/-- An answer of an oracle after the listed ones (R193). -/
theorem Oracle.answer_of_le {o : Oracle} {n : Nat} (h : o.listed.length ≤ n) : o.answer n = o.rest.answer n := by
  simp [Oracle.answer, h]

@[simp] theorem Rest.answer_always (a : Answer) (n : Nat) : (Rest.always a).answer n = a := rfl

theorem State.stopped_eq_none : s.stopped = none ↔ s.status = .running := by
  unfold State.stopped; cases s.status <;> simp

end Sys2Proof.Machine
end

