-- ==== Sys2Proof/Laws/Step.lean ====
section
/-! SUPPORT. What an instruction and a step can do, said once per instruction: its completion, and the fault
it raises (40_execution_loop.md R121 to R126). -/

namespace Sys2Proof.Machine

variable {s t : State} {i : Instr} {a b c a2 : Reg}

section Attempt

variable {α : Type} {r : Except Stop α} {rest : α → Host.Outcome State Fault Refusal} {f : Fault} {q : Refusal}

/-- An operation either hands its result on, or ends the step in its fault (R126). -/
theorem State.attempt_eq_next : s.attempt r rest = .next t ↔
    (∃ v, r = .ok v ∧ rest v = .next t) ∨ ∃ k, r = .error (.raised k) ∧ t = s.raise k := by
  unfold State.attempt
  cases r with
  | ok v => simp
  | error e => cases e <;> simp [eq_comm]

theorem State.attempt_eq_refused : s.attempt r rest = .refused q ↔
    (∃ v, r = .ok v ∧ rest v = .refused q) ∨ r = .error (.refused q) := by
  unfold State.attempt
  cases r with
  | ok v => simp
  | error e => cases e <;> simp

theorem State.attempt_eq_fault : s.attempt r rest = .fault f ↔ ∃ v, r = .ok v ∧ rest v = .fault f := by
  unfold State.attempt
  cases r with
  | ok v => simp
  | error e => cases e <;> simp

@[simp] theorem State.attempt_ok {v : α} : s.attempt (.ok v) rest = rest v := rfl

@[simp] theorem State.attempt_raised {k : FaultKind} :
    s.attempt (.error (.raised k)) rest = .next (s.raise k) := rfl

@[simp] theorem State.attempt_refused : s.attempt (.error (.refused q)) rest = .refused q := rfl

end Attempt

/-! ### Each instruction's next states -/

theorem exec_segmentedLoad_next : exec (.segmentedLoad a b c) s = .next t ↔
    (∃ v, s.mem.read (s.reg b) (s.reg c) = .ok v ∧ t = (s.setReg a v).advance) ∨
      (t = s.raise .outOfBounds ∧ ∀ n, s.mem.len (s.reg b).toNat = some n → n ≤ (s.reg c).toNat) := by
  simp [exec, execSegmentedLoad, State.attempt_eq_next, Memory.read_eq_error, and_comm, @eq_comm _ _ t]

theorem exec_segmentedStore_next : exec (.segmentedStore a b c) s = .next t ↔
    (∃ m, s.mem.write (s.reg a) (s.reg b) (s.reg c) = .ok m ∧ t = (s.setMem m).advance) ∨
      (t = s.raise .outOfBounds ∧ ∀ n, s.mem.len (s.reg a).toNat = some n → n ≤ (s.reg b).toNat) := by
  simp [exec, execSegmentedStore, State.attempt_eq_next, Memory.write_eq_error, and_comm, @eq_comm _ _ t]

theorem aluDivide_eq_ok {n d q : Word} : aluDivide n d = .ok q ↔ d ≠ 0#32 ∧ q = n / d := by
  unfold aluDivide
  by_cases h : d = 0#32 <;> simp [h, @eq_comm _ _ q]

theorem aluDivide_eq_error {n d : Word} {e : Stop} :
    aluDivide n d = .error e ↔ d = 0#32 ∧ e = .raised .divideByZero := by
  unfold aluDivide
  by_cases h : d = 0#32 <;> simp [h, @eq_comm _ _ e]

theorem exec_divide_next : exec (.divide a b c) s = .next t ↔
    (s.reg c ≠ 0#32 ∧ t = (s.setReg a (s.reg b / s.reg c)).advance) ∨
      (t = s.raise .divideByZero ∧ s.reg c = 0#32) := by
  simp [exec, execDivide, State.attempt_eq_next, aluDivide_eq_ok, aluDivide_eq_error, and_comm,
    @eq_comm _ _ t]

theorem outputByte_eq_ok {v : Word} {b : Byte} : outputByte v = .ok b ↔ v.toNat ≤ 255 ∧ b = v.setWidth 8 := by
  unfold outputByte
  by_cases h : 255 < v.toNat
  · simp [h]
  · simp [h, @eq_comm _ _ b]; omega

theorem outputByte_eq_error {v : Word} {e : Stop} :
    outputByte v = .error e ↔ 255 < v.toNat ∧ e = .raised .outputOutOfRange := by
  unfold outputByte
  by_cases h : 255 < v.toNat <;> simp [h, @eq_comm _ _ e]

theorem exec_output_next : exec (.output c) s = .next t ↔
    ((s.reg c).toNat ≤ 255 ∧ t = (s.emit ((s.reg c).setWidth 8)).advance) ∨
      (t = s.raise .outputOutOfRange ∧ 255 < (s.reg c).toNat) := by
  simp [exec, execOutput, State.attempt_eq_next, outputByte_eq_ok, outputByte_eq_error, and_comm,
    @eq_comm _ _ t]

theorem exec_mapSegment_next : exec (.mapSegment b c) s = .next t ↔
    ∃ id m, s.mem.allocate s.capacity (s.reg c) = .ok (id, m) ∧
      t = ((s.setMem m).setReg b (identWord id)).advance := by
  simp [exec, execMapSegment, State.attempt_eq_next, Memory.allocate_eq_error, @eq_comm _ _ t]

theorem exec_unmapSegment_next : exec (.unmapSegment c) s = .next t ↔
    (∃ m, s.mem.deallocate (s.reg c) = .ok m ∧ t = (s.setMem m).advance) ∨
      (t = s.raise .invalidDeallocation ∧
        (s.reg c = 0#32 ∨ s.mem.mapped (s.reg c).toNat = false)) := by
  simp [exec, execUnmapSegment, State.attempt_eq_next, Memory.deallocate_eq_error, and_comm,
    @eq_comm _ _ t]

theorem exec_loadProgram_next : exec (.loadProgram b c) s = .next t ↔
    (∃ m, s.mem.duplicateIntoZero s.capacity (s.reg b) = .ok m ∧ t = (s.setMem m).setPc (s.reg c)) ∨
      (t = s.raise .outOfBounds ∧ s.mem.mapped (s.reg b).toNat = false) := by
  simp [exec, execLoadProgram, State.attempt_eq_next, Memory.duplicateIntoZero_eq_error, and_comm,
    @eq_comm _ _ t]

/-! ### What every instruction leaves alone -/

/-- The memory after an instruction is the old one, or what the one operation of its row of R51 answered. -/
theorem exec_mem (h : exec i s = .next t) : t.mem = s.mem ∨
    (∃ a b c, i = .segmentedStore a b c ∧ s.mem.write (s.reg a) (s.reg b) (s.reg c) = .ok t.mem) ∨
    (∃ b c id, i = .mapSegment b c ∧ s.mem.allocate s.capacity (s.reg c) = .ok (id, t.mem)) ∨
    (∃ c, i = .unmapSegment c ∧ s.mem.deallocate (s.reg c) = .ok t.mem) ∨
    ∃ b c, i = .loadProgram b c ∧ s.mem.duplicateIntoZero s.capacity (s.reg b) = .ok t.mem := by
  cases i with
  | conditionalMove a b c =>
    simp only [exec, execConditionalMove, Host.Outcome.next.injEq] at h
    subst h
    split <;> exact .inl rfl
  | segmentedLoad a b c =>
    rcases exec_segmentedLoad_next.mp h with ⟨v, -, rfl⟩ | ⟨rfl, -⟩ <;> exact .inl rfl
  | segmentedStore a b c =>
    rcases exec_segmentedStore_next.mp h with ⟨m, hm, rfl⟩ | ⟨rfl, -⟩
    · exact .inr (.inl ⟨_, _, _, rfl, hm⟩)
    · exact .inl rfl
  | add a b c | multiply a b c | nand a b c | halt | input c | loadValue a imm => cases h; exact .inl rfl
  | divide a b c => rcases exec_divide_next.mp h with ⟨-, rfl⟩ | ⟨rfl, -⟩ <;> exact .inl rfl
  | mapSegment b c =>
    obtain ⟨id, m, hm, rfl⟩ := exec_mapSegment_next.mp h
    exact .inr (.inr (.inl ⟨_, _, _, rfl, hm⟩))
  | unmapSegment c =>
    rcases exec_unmapSegment_next.mp h with ⟨m, hm, rfl⟩ | ⟨rfl, -⟩
    · exact .inr (.inr (.inr (.inl ⟨_, rfl, hm⟩)))
    · exact .inl rfl
  | output c => rcases exec_output_next.mp h with ⟨-, rfl⟩ | ⟨rfl, -⟩ <;> exact .inl rfl
  | loadProgram b c =>
    rcases exec_loadProgram_next.mp h with ⟨m, hm, rfl⟩ | ⟨rfl, -⟩
    · exact .inr (.inr (.inr (.inr ⟨_, _, rfl, hm⟩)))
    · exact .inl rfl

/-- No instruction stops a machine by itself: a fault of the machine is a next state (R206). -/
theorem exec_ne_fault (i : Instr) (s : State) (f : Fault) : exec i s ≠ .fault f := by
  intro h
  cases i
  case conditionalMove => simp [exec, execConditionalMove] at h
  all_goals first
    | cases h
    | (obtain ⟨_, _, h⟩ := State.attempt_eq_fault.mp h; cases h)

/-! ### The step -/

theorem State.fetchInstr_eq_ok : s.fetchInstr = .ok i ↔ ∃ w, s.fetch = .ok w ∧ decode w = .ok i := by
  unfold State.fetchInstr
  cases s.fetch with
  | error e => simp
  | ok w =>
    cases hd : decode w with
    | ok j => simp [hd]
    | error e => simp [hd]

theorem State.fetchInstr_eq_error {e : Stop} : s.fetchInstr = .error e ↔
    s.fetch = .error e ∨
      (e = .raised .decodeFault ∧ ∃ w, s.fetch = .ok w ∧ decode w = .error .invalidOpcode) := by
  unfold State.fetchInstr
  cases s.fetch with
  | error e' => simp
  | ok w =>
    cases hd : decode w with
    | ok j => simp [hd]
    | error d => cases d; simp [hd, @eq_comm _ _ e]

/-- A step of a running machine is the fetched instruction's meaning, or the fault of the fetch or the
decode. -/
theorem step_running (h : s.status = .running) : step s = s.attempt s.fetchInstr fun i => exec i s := by
  simp [step, (State.stopped_eq_none s).mpr h]

/-- The next states of a step, said once (R121 to R123). -/
theorem step_next : step s = .next t ↔ s.status = .running ∧
    ((∃ i, s.fetchInstr = .ok i ∧ exec i s = .next t) ∨
      (t = s.raise .outOfBounds ∧ ∀ n, s.mem.len 0 = some n → n ≤ s.pc.toNat) ∨
      (t = s.raise .decodeFault ∧ ∃ w, s.fetch = .ok w ∧ decode w = .error .invalidOpcode)) := by
  by_cases h : s.status = .running
  · rw [step_running h, State.attempt_eq_next]
    constructor
    · rintro (⟨i, hi⟩ | ⟨k, hk, rfl⟩)
      · exact ⟨h, .inl ⟨i, hi⟩⟩
      · rcases State.fetchInstr_eq_error.mp hk with hf | ⟨e, hw⟩
        · obtain ⟨e, hl⟩ := Memory.read_eq_error.mp hf
          cases e
          exact ⟨h, .inr (.inl ⟨rfl, hl⟩)⟩
        · cases e
          exact ⟨h, .inr (.inr ⟨rfl, hw⟩)⟩
    · rintro ⟨-, hi | ⟨rfl, hl⟩ | ⟨rfl, hw⟩⟩
      · exact .inl hi
      · exact .inr ⟨_, State.fetchInstr_eq_error.mpr (.inl (Memory.read_eq_error.mpr ⟨rfl, hl⟩)), rfl⟩
      · exact .inr ⟨_, State.fetchInstr_eq_error.mpr (.inr ⟨rfl, hw⟩), rfl⟩
  · have : s.stopped ≠ none := fun e => h ((State.stopped_eq_none s).mp e)
    unfold step
    cases e : s.stopped with
    | none => exact absurd e this
    | some f => simp [h]

theorem State.nextInstr_eq_some : s.nextInstr = some i ↔ s.fetchInstr = .ok i := by
  unfold State.nextInstr
  cases s.fetchInstr <;> simp [Except.toOption]

/-- Where the next instruction is known, a step that goes on is that instruction's meaning. -/
theorem exec_of_step (h : step s = .next t) (hi : s.nextInstr = some i) : exec i s = .next t := by
  have hr := (step_next.mp h).1
  rw [step_running hr, State.nextInstr_eq_some.mp hi] at h
  exact h

/-- A property that holds at a state and that every step keeps holds of every state of the run. -/
theorem Reaches.keeps {P : State → Prop} (h0 : P s) (hstep : ∀ u v, P u → Machine.step u = .next v → P v)
    (h : Reaches s t) : P t := by
  induction h with
  | start => exact h0
  | step _ now ih => exact hstep _ _ ih now

end Sys2Proof.Machine
end

