-- ==== Sys2Proof/Tests/Slice0.lean ====
section
/-! SUPPORT. The model's own tests, one step each on small states; expected values from 95_test_vectors.md
parts 1 and 2, 30_encoding.md R106 and 20_memory.md R72. After them, one named witness for the hypotheses of every
obligation that has any. -/

namespace Sys2Proof.Tests

open Sys2Proof.Machine

/-! ### Helpers -/

/-- A state built as the vectors' start states are: reset with a program, then some registers. -/
def start (prog : List Word) (regs : List (Reg × Word)) : State :=
  regs.foldl (fun s p => s.setReg p.1 p.2) ((State.boot prog (Oracle.finite []) none).getD State.reset)

/-- The same with further segments, in rising order of identifier, a reuse queue and `nid`. -/
def startMem (prog : List Word) (regs : List (Reg × Word)) (segs : List (Nat × List Word))
    (free : List Nat) (nid : Nat) : State :=
  { start prog regs with
    mem := { seg := (0, Segment.ofWords prog) :: segs.map (fun p => (p.1, Segment.ofWords p.2))
             free := free
             nid := nid } }

/-- The next state of an outcome that has one. -/
def after : Host.Outcome State Fault Refusal → Option State
  | .next t => some t
  | _ => none

/-- The reason of a refusal. -/
def refusal : Host.Outcome State Fault Refusal → Option Refusal
  | .refused q => some q
  | _ => none

/-- The reason of a stop. -/
def stop : Host.Outcome State Fault Refusal → Option Fault
  | .fault f => some f
  | _ => none

theorem of_after {o : Host.Outcome State Fault Refusal} {t : State} (h : after o = some t) : o = .next t := by
  cases o <;> simp_all [after]

theorem of_refusal {o : Host.Outcome State Fault Refusal} {q : Refusal} (h : refusal o = some q) :
    o = .refused q := by
  cases o <;> simp_all [refusal]

theorem of_stop {o : Host.Outcome State Fault Refusal} {f : Fault} (h : stop o = some f) : o = .fault f := by
  cases o <;> simp_all [stop]

/-- An outcome with a next state that a check accepts: the form every witness about a next state takes. -/
theorem next_of_check {o : Host.Outcome State Fault Refusal} {p : State → Prop} [DecidablePred p]
    (h : (after o).any (fun t => decide (p t)) = true) : ∃ t, o = .next t ∧ p t := by
  cases o <;> simp_all [after]

/-! ### Well-formedness: one ill-formed line for each check, refused -/

theorem test_wf_count : (Line.op .add [1, 2] none).wellFormed = false := by decide
theorem test_wf_register : (Line.op .out [8] none).wellFormed = false := by decide
theorem test_wf_immediate_range : (Line.op .lv [0] (some 0x2000000)).wellFormed = false := by decide
theorem test_wf_immediate_missing : (Line.op .lv [0] none).wellFormed = false := by decide
theorem test_wf_immediate_extra : (Line.op .halt [] (some 0)).wellFormed = false := by decide
theorem test_wf_word_range : (Line.word 0x100000000).wellFormed = false := by decide
theorem test_wf_accepts : (Line.op .lv [7] (some 0x1FFFFFF)).wellFormed = true := by decide
theorem test_assemble : assemble (.op .sload [7, 6, 5] none) = some 0x100001F5#32 := by decide
theorem test_assemble_refuses : assemble (.op .sload [7, 6, 8] none) = none := by decide
theorem test_assemble_word : assemble (.word 0xE0000000) = some 0xE0000000#32 := by decide

/-! ### Decoding: words of R106 and of part 2's decoder table -/

theorem test_decode_cmov : decode 0x00000053#32 = .ok (.conditionalMove 1 2 3) := by decide
theorem test_decode_cmov_ignored : decode 0x0FFFFE00#32 = .ok (.conditionalMove 0 0 0) := by decide
theorem test_decode_sload : decode 0x100001F5#32 = .ok (.segmentedLoad 7 6 5) := by decide
theorem test_decode_sstore : decode 0x20000083#32 = .ok (.segmentedStore 2 0 3) := by decide
theorem test_decode_add : decode 0x30000053#32 = .ok (.add 1 2 3) := by decide
theorem test_decode_mul : decode 0x40000125#32 = .ok (.multiply 4 4 5) := by decide
theorem test_decode_div : decode 0x5000000A#32 = .ok (.divide 0 1 2) := by decide
theorem test_decode_nand : decode 0x600000C0#32 = .ok (.nand 3 0 0) := by decide
theorem test_decode_halt : decode 0x7FFFFFFF#32 = .ok .halt := by decide
theorem test_decode_map : decode 0x800001CA#32 = .ok (.mapSegment 1 2) := by decide
theorem test_decode_unmap : decode 0x900001F9#32 = .ok (.unmapSegment 1) := by decide
theorem test_decode_out : decode 0xA0000005#32 = .ok (.output 5) := by decide
theorem test_decode_in : decode 0xB0000005#32 = .ok (.input 5) := by decide
theorem test_decode_loadp : decode 0xC0000010#32 = .ok (.loadProgram 2 0) := by decide
theorem test_decode_lv : decode 0xD2000048#32 = .ok (.loadValue 1 72#25) := by decide
theorem test_decode_lv_low : decode 0xD00001FF#32 = .ok (.loadValue 0 511#25) := by decide
theorem test_decode_last_valid : decode 0xDFFFFFFF#32 = .ok (.loadValue 7 0x1FFFFFF#25) := by decide
theorem test_decode_14 : decode 0xE0000000#32 = .error .invalidOpcode := by decide
theorem test_decode_15 : decode 0xFFFFFFFF#32 = .error .invalidOpcode := by decide
theorem test_decode_table : decodeTableWord 32 0xC0000010 = some (.loadProgram 2 0) := by decide
theorem test_encode_lv : encode (.loadValue 7 0#25) = 0xDE000000#32 := by decide
theorem test_encode_sstore : encode (.segmentedStore 2 0 3) = 0x20000083#32 := by decide

/-! ### One step: part 2's vectors -/

-- V-M1, V-M4
theorem test_cmov_zero :
    after (step (start [0x00000053#32] [(1, 5), (2, 9)])) =
      some { start [0x00000053#32] [(1, 5), (2, 9)] with pc := 1 } := by decide
theorem test_cmov_same_register :
    (after (step (start [0x00000051#32] [(1, 5), (2, 9)]))).map (·.reg 1) = some 9#32 := by decide
-- V-M7, V-M9
theorem test_lv_replaces :
    (after (step (start [0xD6000000#32] [(3, 0xFFFFFFFF)]))).map (·.reg 3) = some 0#32 := by decide
theorem test_lv_bit24 :
    (after (step (start [0xD1000000#32] []))).map (·.reg 0) = some 0x01000000#32 := by decide
-- V-L2, V-L3
theorem test_sload :
    (after (step (startMem [0x100001F5#32] [(6, 3)] [(3, [10, 20, 30])] [1, 2] 4))).map (·.reg 7) =
      some 10#32 := by decide
theorem test_sload_past_end :
    (after (step (startMem [0x100001F5#32] [(6, 3), (5, 3)] [(3, [10, 20, 30])] [1, 2] 4))).map
      (fun t => (t.status, t.pc, t.reg 7)) = some (.faulted .outOfBounds, 0#32, 0#32) := by decide
-- V-S2, V-S4
theorem test_sstore :
    (after (step (startMem [0x200000A3#32] [(2, 3), (4, 2), (3, 7)] [(3, [10, 20, 30])] [1, 2] 4))).map
      (·.mem.contents 3) = some (some [10, 20, 7]) := by decide
theorem test_sstore_unmapped :
    (after (step (startMem [0x20000083#32] [(2, 9)] [(3, [10, 20, 30])] [1, 2] 4))).map (·.status) =
      some (.faulted .outOfBounds) := by decide
-- V-A1, and R160's r7 + r7
theorem test_add_wraps :
    (after (step (start [0x3000000A#32] [(1, 0xFFFFFFFF), (2, 1)]))).map (·.reg 0) = some 0#32 := by decide
theorem test_add_doubles :
    (after (step (start [0x300001FF#32] [(7, 0x40000001)]))).map (·.reg 7) = some 0x80000002#32 := by decide
-- V-A10, V-A8
theorem test_mul_low :
    (after (step (start [0x4000000A#32] [(1, 0x12345678), (2, 0x9ABCDEF0)]))).map (·.reg 0) =
      some 0x242D2080#32 := by decide
theorem test_mul_max :
    (after (step (start [0x4000000A#32] [(1, 0xFFFFFFFF), (2, 0xFFFFFFFF)]))).map (·.reg 0) =
      some 1#32 := by decide
-- V-A16, V-A23
theorem test_div_unsigned :
    (after (step (start [0x5000000A#32] [(0, 6), (1, 0x80000000), (2, 0xFFFFFFFF)]))).map (·.reg 0) =
      some 0#32 := by decide
theorem test_div_zero :
    (after (step (start [0x5000000A#32] []))).map (·.status) = some (.faulted .divideByZero) := by decide
-- V-A26, V-A27
theorem test_nand :
    (after (step (start [0x6000000A#32] [(1, 0xF0F0F0F0), (2, 0xFF00FF00)]))).map (·.reg 0) =
      some 0x0FFF0FFF#32 := by decide
theorem test_nand_mixed :
    (after (step (start [0x6000000A#32] [(1, 0x12345678), (2, 0x0F0F0F0F)]))).map (·.reg 0) =
      some 0xFDFBF9F7#32 := by decide
-- V-C2
theorem test_halt :
    (after (step (start [0x7ABCDEF0#32] []))).map (fun t => (t.status, t.pc)) = some (.halted, 0#32) := by
  decide
-- V-G3, V-G6
theorem test_map_same_register :
    (after (step (start [0x80000012#32] [(2, 2)]))).map (fun t => (t.reg 2, t.mem.contents 1, t.mem.nid)) =
      some (1#32, some [0, 0], 2) := by decide
theorem test_map_reuses_oldest :
    (after (step (startMem [0x80000034#32] [(4, 5)] [] [1, 2] 3))).map
      (fun t => (t.reg 6, t.mem.len 1, t.mem.free, t.mem.nid)) = some (1#32, some 5, [2], 3) := by decide
-- V-G5, V-G11
theorem test_unmap_tail :
    (after (step (startMem [0x90000003#32] [(1, 1), (3, 2)] [(2, [0])] [1] 3))).map
      (fun t => (t.mem.free, t.mem.mapped 2, t.reg 3)) = some ([1, 2], false, 2#32) := by decide
theorem test_unmap_twice :
    (after (step (startMem [0x90000001#32] [(1, 1)] [] [1] 2))).map (fun t => (t.status, t.mem.free)) =
      some (.faulted .invalidDeallocation, [1]) := by decide
-- V-I3, V-I4
theorem test_out_255 :
    (after (step (start [0xA0000001#32] [(1, 255)]))).map (·.out) = some [255#8] := by decide
theorem test_out_256 :
    (after (step (start [0xA0000001#32] [(1, 256)]))).map (fun t => (t.status, t.out, t.pc)) =
      some (.faulted .outputOutOfRange, [], 0#32) := by decide
-- V-I7, V-I9
theorem test_in_byte_255 :
    (after (step { start [0xB0000005#32] [(5, 0xDEADBEEF)] with input := Oracle.finite [0xFF] })).map
      (fun t => (t.reg 5, t.inpos)) = some (0xFF#32, 1) := by decide
theorem test_in_eof :
    (after (step (start [0xB0000005#32] []))).map (fun t => (t.reg 5, t.inpos)) =
      some (0xFFFFFFFF#32, 1) := by decide
-- V-C5, V-C4
theorem test_loadp_copies :
    (after (step (startMem [0xC0000010#32, 0#32] [(2, 1)] [(1, [0x70000000])] [] 2))).map
      (fun t => (t.mem.contents 0, t.mem.contents 1, t.pc)) =
        some (some [0x70000000], some [0x70000000], 0#32) := by decide
theorem test_loadp_target_unchecked :
    (after (step (start [0xC0000001#32, 0x70000000#32] [(1, 100)]))).map (fun t => (t.status, t.pc)) =
      some (.running, 100#32) := by decide

/-! ### Faults of the loop: V-F1, V-F2 -/

theorem test_empty_program :
    after (step State.reset) = some { State.reset with status := .faulted .outOfBounds } := by decide
theorem test_invalid_opcode :
    (after (step (start [0xFFFFFFFF#32] []))).map (fun t => (t.status, t.pc)) =
      some (.faulted .decodeFault, 0#32) := by decide

/-! ### Witnesses: states and operands that meet the hypotheses of each obligation -/

theorem witness_EncodeOfDecodeClearsIgnoredBits :
    (decode 0x30000053#32 = .ok (.add 1 2 3) ∧ 0x30000053#32 &&& ~~~usedBits (.add 1 2 3) = 0#32) ∧
    (decode 0x3FFFFE53#32 = .ok (.add 1 2 3) ∧ 0x3FFFFE53#32 &&& ~~~usedBits (.add 1 2 3) ≠ 0#32) := by
  decide

theorem witness_IgnoredBitsTakeNoPart :
    decode 0x30000053#32 = .ok (.add 1 2 3) ∧
      0x30000053#32 &&& usedBits (.add 1 2 3) = 0x3FFFFE53#32 &&& usedBits (.add 1 2 3) := by decide

/-- Both sides of the last valid word. -/
theorem witness_IllegalWordsAreTopRange :
    decode 0xDFFFFFFF#32 ≠ .error .invalidOpcode ∧ decode 0xE0000000#32 = .error .invalidOpcode := by decide

theorem witness_AssemblerAcceptsExactlyInstructionLines :
    assemble (.op .map [7, 0] none) = some 0x80000038#32 ∧ assemble (.op .map [8, 0] none) = none := by decide

theorem witness_StepRunsDecodedInstruction :
    (start [0x3000000A#32] []).status = .running ∧
      (start [0x3000000A#32] []).mem.read 0#32 (start [0x3000000A#32] []).pc = .ok 0x3000000A#32 ∧
      decode 0x3000000A#32 = .ok (.add 0 1 2) := by
  refine ⟨by decide, by rfl, by decide⟩

theorem witness_PlacedWordRunsNext : decodeTableWord 32 0x90000001 = some (.unmapSegment 1) := by decide

/-- The last word of segment 0, and one past it. -/
theorem witness_FetchIsBoundedReadOfSegmentZero :
    let inside := start [0x70000000#32] []
    let past := { inside with pc := 1#32 }
    (inside.Inv ∧ inside.status = .running ∧ inside.mem.len 0 = some 1 ∧ inside.pc.toNat < 1) ∧
      past.Inv ∧ past.status = .running ∧ past.mem.len 0 = some 1 ∧ 1 ≤ past.pc.toNat := by decide

theorem witness_NoStepAfterTheEnd :
    { start [0x70000000#32] [] with status := .halted }.status = .halted ∧
      { start [0x70000000#32] [] with status := .faulted .decodeFault }.status = .faulted .decodeFault := by
  decide

/-- A step with a next state, and the two refusals: no identifier left, and no room left. -/
theorem witness_RunningMachineStepsOrIsExhausted :
    (∃ t, step (start [0x8000000A#32] []) = .next t ∧ t.reg 1 = 1#32) ∧
    (startMem [0x8000000A#32] [] [] [] (2 ^ 32)).status = .running ∧
    step (startMem [0x8000000A#32] [] [] [] (2 ^ 32)) = .refused .resourceExhausted ∧
    step { startMem [0xC0000010#32] [(2, 1)] [(1, [1, 2, 3])] [] 2 with capacity := some 5 } =
      .refused .resourceExhausted :=
  ⟨next_of_check (by decide), by decide, of_refusal (by decide), of_refusal (by decide)⟩

theorem witness_FaultingStepChangesOnlyStatus :
    ∃ t, step (start [0x5000000A#32] []) = .next t ∧ t.status = .faulted .divideByZero :=
  next_of_check (by decide)

/-- One state for each of the four places. -/
theorem witness_OutOfBoundsInExactlyFourPlaces :
    (∃ t, step State.reset = .next t ∧ t.status = .faulted .outOfBounds) ∧
    (∃ t, step (start [0x10000048#32] [(0, 1)]) = .next t ∧ t.status = .faulted .outOfBounds) ∧
    (∃ t, step (start [0x20000049#32] [(1, 1)]) = .next t ∧ t.status = .faulted .outOfBounds) ∧
    (∃ t, step (start [0xC0000008#32] [(1, 4)]) = .next t ∧ t.status = .faulted .outOfBounds) :=
  ⟨next_of_check (by decide), next_of_check (by decide), next_of_check (by decide), next_of_check (by decide)⟩

theorem witness_DecodeFaultExactlyOnInvalidOpcode :
    (start [0xE0000000#32] []).status = .running ∧
      (∃ t, step (start [0xE0000000#32] []) = .next t ∧ t.status = .faulted .decodeFault) ∧
      ∃ t, step (start [0xDFFFFFFF#32] []) = .next t ∧ t.status = .running :=
  ⟨by decide, next_of_check (by decide), next_of_check (by decide)⟩

theorem witness_DivideAndUnmapFaultsExactly :
    (∃ t, step (start [0x5000000A#32] [(1, 9)]) = .next t ∧ t.status = .faulted .divideByZero) ∧
    (∃ t, step (start [0x5000000A#32] [(2, 1)]) = .next t ∧ t.status = .running) ∧
    (∃ t, step (start [0x90000000#32] []) = .next t ∧ t.status = .faulted .invalidDeallocation) ∧
    (∃ t, step (start [0x90000001#32] [(1, 1)]) = .next t ∧ t.status = .faulted .invalidDeallocation) ∧
    ∃ t, step (startMem [0x90000001#32] [(1, 1)] [(1, [])] [] 2) = .next t ∧ t.status = .running :=
  ⟨next_of_check (by decide), next_of_check (by decide), next_of_check (by decide), next_of_check (by decide),
    next_of_check (by decide)⟩

theorem witness_OutputFaultExactlyAbove255 :
    (∃ t, step (start [0xA0000001#32] [(1, 255)]) = .next t ∧ t.status = .running) ∧
    ∃ t, step (start [0xA0000001#32] [(1, 256)]) = .next t ∧ t.status = .faulted .outputOutOfRange :=
  ⟨next_of_check (by decide), next_of_check (by decide)⟩

theorem witness_OnlyHaltEndsCleanly :
    (∃ t, step (start [0x70000000#32] []) = .next t ∧ t.status = .halted) ∧
    ∃ t, step (start [0xE0000000#32] []) = .next t ∧ t.status ≠ .halted :=
  ⟨next_of_check (by decide), next_of_check (by decide)⟩

theorem witness_PcAdvancesUnlessLoadProgram :
    (start [0xC0000001#32] [(1, 7)]).Inv ∧
      (∃ t, step (start [0xC0000001#32] [(1, 7)]) = .next t ∧ t.status = .running) ∧
      (start [0xD6000000#32] []).Inv ∧ ∃ t, step (start [0xD6000000#32] []) = .next t ∧ t.status = .running :=
  ⟨by decide, next_of_check (by decide), by decide, next_of_check (by decide)⟩

theorem witness_StepKeepsMemoryInvariants :
    let s := startMem [0x90000001#32] [(1, 2)] [(2, [5])] [1] 3
    s.Inv ∧ ∃ t, step s = .next t ∧ t.mem.free = [1, 2] :=
  ⟨by decide, next_of_check (by decide)⟩

theorem witness_BootLeavesTheStatedState :
    ([] : List Word).length < 2 ^ 32 ∧ (List.replicate (2 ^ 32 - 1) 0#32).length < 2 ^ 32 ∧
      2 ^ 32 ≤ (List.replicate (2 ^ 32) 0#32).length := by
  simp only [List.length_replicate]; decide

theorem witness_RunsKeepInvariantsAndHistory :
    let s := start [0xA0000001#32, 0xB0000001#32] [(1, 72)]
    s.Inv ∧ ∃ t, Reaches s t ∧ t.out = [72#8] := by
  obtain ⟨t, h, ho⟩ := next_of_check (o := step (start [0xA0000001#32, 0xB0000001#32] [(1, 72)]))
    (p := fun t => t.out = [72#8]) (by decide)
  exact ⟨by decide, t, .step .start h, ho⟩

/-- The words fill the capacity exactly, and one more segment of no words is mapped. -/
theorem witness_StepsStayWithinCapacity :
    let s := { start [0x8000000A#32] [] with capacity := some 1 }
    s.Inv ∧ s.capacity = some 1 ∧ s.mem.words ≤ 1 ∧ ∃ t, step s = .next t ∧ t.reg 1 = 1#32 :=
  ⟨by decide, by decide, by decide, next_of_check (by decide)⟩

/-- One word too many, and exactly enough, for each of the two instructions. -/
theorem witness_RefusedExactlyWhenExhausted :
    let m := { start [0#32] [(2, 3)] with capacity := some 3 }
    let l := { startMem [0#32] [(2, 1)] [(1, [1, 2, 3])] [] 2 with capacity := some 5 }
    m.Inv ∧ exec (.mapSegment 1 2) m = .refused .resourceExhausted ∧
    (∃ t, exec (.mapSegment 1 2) { m with capacity := some 4 } = .next t ∧ t.mem.words = 4) ∧
    l.Inv ∧ exec (.loadProgram 2 0) l = .refused .resourceExhausted ∧
    ∃ t, exec (.loadProgram 2 0) { l with capacity := some 6 } = .next t ∧ t.mem.words = 6 :=
  ⟨by decide, of_refusal (by decide), next_of_check (by decide), by decide, of_refusal (by decide),
    next_of_check (by decide)⟩

/-- A memory with segment 3 = [10, 20, 30], as in the vectors. -/
def mem3 : Memory :=
  { seg := [(0, Segment.ofWords [0x70000000]), (3, Segment.ofWords [10, 20, 30])], free := [2, 1], nid := 4 }

theorem witness_MemReadRule :
    mem3.contents 1 = none ∧ mem3.contents 3 = some [10, 20, 30] ∧ [10#32, 20, 30].length ≤ (3#32).toNat ∧
      [10#32, 20, 30][(2#32).toNat]? = some 30#32 := by decide

theorem witness_MemWriteRule :
    (∃ e, mem3.read 3#32 3#32 = .error e) ∧ mem3.read 3#32 2#32 = .ok 30#32 :=
  ⟨⟨_, rfl⟩, rfl⟩

/-- The queue non-empty, and empty. -/
theorem witness_AllocateRule :
    (mem3.Inv ∧ mem3.free ≠ []) ∧ State.reset.mem.Inv ∧ State.reset.mem.free = [] ∧
      State.reset.mem.nid < 2 ^ 32 := by decide

theorem witness_DeallocateRule :
    mem3.mapped (1#32).toNat = false ∧ 3#32 ≠ 0#32 ∧ mem3.mapped (3#32).toNat = true := by decide

theorem witness_DuplicateIntoZeroRule :
    mem3.mapped (1#32).toNat = false ∧ mem3.mapped 0 = true ∧ 3#32 ≠ 0#32 ∧
      mem3.mapped (3#32).toNat = true := by decide

/-- R72 steps 4 to 7 (deallocate 2, then 1, then two allocations give 2, then 1), the queue first empty, then
with identifier 3 queued before, and as many allocations as the queue lasts for. -/
theorem witness_ReuseIsFirstInFirstOut :
    let m (l : List Nat) : Memory :=
      { seg := [(0, Segment.zeros 0), (1, Segment.zeros 3), (2, Segment.zeros 0)], free := l, nid := 4 }
    (∃ m1 m2, (m []).deallocate 2#32 = .ok m1 ∧ m1.deallocate 1#32 = .ok m2 ∧ [4#32, 4#32].length ≤ 0 + 2 ∧
      (m2.allocateEach [4#32, 4#32]).map Prod.fst = .ok [2, 1]) ∧
    ∃ m1 m2, (m [3]).deallocate 2#32 = .ok m1 ∧ m1.deallocate 1#32 = .ok m2 ∧
      [5#32, 4#32, 0#32].length ≤ 1 + 2 ∧ (m2.allocateEach [5#32, 4#32, 0#32]).map Prod.fst = .ok [3, 2, 1] :=
  ⟨⟨_, _, rfl, rfl, by decide, rfl⟩, _, _, rfl, rfl, by decide, rfl⟩

/-- A reused identifier, its last word read, another word written. -/
theorem witness_AllocatedWordsReadZeroUntilWritten :
    mem3.Inv ∧ ∃ m' m'', mem3.allocate none 2#32 = .ok ((2#32).toNat, m') ∧ (1#32).toNat < (2#32).toNat ∧
      ¬(2#32 = 2#32 ∧ 0#32 = 1#32) ∧ m'.write 2#32 0#32 9#32 = .ok m'' :=
  ⟨by decide, _, _, rfl, by decide, by decide, rfl⟩

theorem witness_IdentifiersNeverShareStorage :
    (3#32 ≠ 0#32 ∧ ∃ m', mem3.write 3#32 2#32 7#32 = .ok m') ∧
    ∃ m1 m2 m3, mem3.duplicateIntoZero none 3#32 = .ok m1 ∧ m1.write 0#32 2#32 7#32 = .ok m2 ∧
      m1.write 3#32 2#32 7#32 = .ok m3 :=
  ⟨⟨by decide, _, rfl⟩, _, _, _, rfl, rfl, rfl⟩

theorem witness_MemoryRefinesWordSequences :
    mem3.read 3#32 2#32 = .ok 30#32 ∧ (∃ m', mem3.write 3#32 2#32 7#32 = .ok m') ∧
    (∃ m', mem3.allocate none 0#32 = .ok (2, m')) ∧ (∃ m', mem3.deallocate 3#32 = .ok m') ∧
    (∃ m', mem3.duplicateIntoZero none 3#32 = .ok m') ∧ ∃ m', mem3.duplicateIntoZero none 0#32 = .ok m' :=
  ⟨rfl, ⟨_, rfl⟩, ⟨_, rfl⟩, ⟨_, rfl⟩, ⟨_, rfl⟩, ⟨_, rfl⟩⟩

/-- A memory written to and written back, beside the memory as it was. -/
theorem witness_CanonicalMemoriesAreDeterminedByContents :
    ∃ m1 m2, mem3.write 3#32 1#32 0#32 = .ok m1 ∧ m1.write 3#32 1#32 20#32 = .ok m2 ∧ mem3.wf ∧ m2.wf ∧
      (∀ i, mem3.contents i = m2.contents i) ∧ mem3.free = m2.free ∧ mem3.nid = m2.nid :=
  ⟨_, _, rfl, rfl, by decide, by decide, fun _ => rfl, rfl, rfl⟩

/-- The word kept, stored to, unmapped, and replaced in segment 0. -/
theorem witness_WordsChangeOnlyByNamedInstructions :
    let s (w : Word) := startMem [w] [(1, 1), (2, 1)] [(1, [5, 6])] [] 2
    ((s 0x3000000A#32).Inv ∧ (s 0x3000000A#32).mem.read 1#32 1#32 = .ok 6#32 ∧
      ∃ t, step (s 0x3000000A#32) = .next t ∧ t.mem.contents 1 = some [5, 6]) ∧
    ((s 0x2000004B#32).Inv ∧ (s 0x2000004B#32).mem.read 1#32 1#32 = .ok 6#32 ∧
      ∃ t, step (s 0x2000004B#32) = .next t ∧ t.mem.contents 1 = some [5, 0]) ∧
    ((s 0x90000001#32).Inv ∧ (s 0x90000001#32).mem.read 1#32 1#32 = .ok 6#32 ∧
      ∃ t, step (s 0x90000001#32) = .next t ∧ t.mem.contents 1 = none) ∧
    ((s 0xC0000008#32).Inv ∧ (s 0xC0000008#32).mem.read 0#32 0#32 = .ok 0xC0000008#32 ∧
      ∃ t, step (s 0xC0000008#32) = .next t ∧ t.mem.contents 0 = some [5, 6]) :=
  ⟨⟨by decide, rfl, next_of_check (by decide)⟩, ⟨by decide, rfl, next_of_check (by decide)⟩,
    ⟨by decide, rfl, next_of_check (by decide)⟩, by decide, rfl, next_of_check (by decide)⟩

theorem witness_SegmentLengthsAreFixed :
    let s (w : Word) := startMem [w] [(1, 1)] [(1, [5, 6])] [] 2
    ((s 0x3000000A#32).Inv ∧ (s 0x3000000A#32).mem.len 1 = some 2 ∧
      ∃ t, step (s 0x3000000A#32) = .next t ∧ t.mem.len 1 = some 2) ∧
    ((s 0x90000001#32).Inv ∧ (s 0x90000001#32).mem.len 1 = some 2 ∧
      ∃ t, step (s 0x90000001#32) = .next t ∧ t.mem.len 1 = none) ∧
    ((s 0xC0000008#32).Inv ∧ (s 0xC0000008#32).mem.len 0 = some 1 ∧
      ∃ t, step (s 0xC0000008#32) = .next t ∧ t.mem.len 0 = some 2) :=
  ⟨⟨by decide, rfl, next_of_check (by decide)⟩, ⟨by decide, rfl, next_of_check (by decide)⟩,
    by decide, rfl, next_of_check (by decide)⟩

/-- `sstore r0, r4, r1` at offset 0 stores a Halt word at offset 1. -/
theorem witness_StoreToProgramIsFetchedNext :
    let s := start [0x20000021#32, 0xDA000021#32] [(4, 1), (1, 0x70000000)]
    s.nextInstr = some (.segmentedStore 0 4 1) ∧ s.reg 0 = 0#32 ∧ s.reg 4 = s.pc + 1 ∧
      ∃ t, step s = .next t ∧ t.status = .running :=
  ⟨by decide, by decide, by decide, next_of_check (by decide)⟩

/-- Registers not read: the destination, another one, the destination and the source of a ConditionalMove whose
condition fails, the destination of a Divide that faults, and the destination of a refused MapSegment. -/
theorem witness_RegistersAreReadAndWrittenAsTabulated :
    let s := start [0#32] [(1, 5), (2, 9)]
    let f := { start [0#32] [(2, 1)] with capacity := some 1 }
    (writes (.add 1 2 3) s = some 1 ∧ 1 ∉ reads (.add 1 2 3) s ∧
      ∃ t, exec (.add 1 2 3) s = .next t ∧ t.reg 1 = 9#32) ∧
    (writes (.add 1 2 3) s ≠ some 4 ∧ 4 ∉ reads (.add 1 2 3) s) ∧
    (writes (.conditionalMove 1 2 3) s = none ∧ 1 ∉ reads (.conditionalMove 1 2 3) s ∧
      2 ∉ reads (.conditionalMove 1 2 3) s ∧ ∃ t, exec (.conditionalMove 1 2 3) s = .next t ∧ t.reg 1 = 5#32) ∧
    (writes (.divide 1 2 3) s = none ∧ 1 ∉ reads (.divide 1 2 3) s ∧
      ∃ t, exec (.divide 1 2 3) s = .next t ∧ t.reg 1 = 5#32) ∧
    1 ∉ reads (.mapSegment 1 2) f ∧ exec (.mapSegment 1 2) f = .refused .resourceExhausted :=
  ⟨⟨by decide, by decide, next_of_check (by decide)⟩, ⟨by decide, by decide⟩,
    ⟨by decide, by decide, by decide, next_of_check (by decide)⟩,
    ⟨by decide, by decide, next_of_check (by decide)⟩, by decide, of_refusal (by decide)⟩

/-- A stream of byte 7 without end. -/
theorem witness_InputOraclesCoverAnswerSequences :
    ∃ (f : Nat → Answer) (a : Answer), (∀ n, 0 ≤ n → f n = a) ∧ a ≠ .eof :=
  ⟨fun _ => .byte 7, .byte 7, fun _ _ => rfl, by decide⟩

theorem witness_OutputOnlyAppendsItsByte :
    (∃ t, step { start [0xA0000001#32] [(1, 255)] with out := [7#8] } = .next t ∧ t.out = [7#8, 255#8]) ∧
    (∃ t, step (start [0xA0000001#32] [(1, 256)]) = .next t ∧ t.out = []) ∧
    ∃ t, step (start [0xB0000001#32] []) = .next t ∧ t.out = [] :=
  ⟨next_of_check (by decide), next_of_check (by decide), next_of_check (by decide)⟩

theorem witness_InputConsumesExactlyOneAnswer :
    (∃ t, step { start [0xB0000001#32] [] with input := Oracle.finite [9] } = .next t ∧ t.inpos = 1) ∧
    ∃ t, step (start [0x70000000#32] []) = .next t ∧ t.inpos = 0 :=
  ⟨next_of_check (by decide), next_of_check (by decide)⟩

/-- A step that is no Input, under any other oracle; an Input with the same next answer; a refused step. -/
theorem witness_OracleActsOnlyThroughInput :
    (∀ c, (start [0x3000000A#32] []).nextInstr ≠ some (.input c)) ∧
    (∃ t, step (start [0x3000000A#32] []) = .next t ∧ t.status = .running) ∧
    (start [0xB0000005#32] []).answer = State.answer { start [0xB0000005#32] [] with input := ⟨[.eof], .free 0⟩ } ∧
    (∃ t, step (start [0xB0000005#32] []) = .next t ∧ t.reg 5 = 0xFFFFFFFF#32) ∧
    (∀ c, (startMem [0x8000000A#32] [] [] [] (2 ^ 32)).nextInstr ≠ some (.input c)) ∧
    step (startMem [0x8000000A#32] [] [] [] (2 ^ 32)) = .refused .resourceExhausted :=
  ⟨by decide, next_of_check (by decide), by decide, next_of_check (by decide), by decide, of_refusal (by decide)⟩

theorem witness_OutputHistoryIsNeverRead :
    ∃ t, step (start [0xA0000001#32] [(1, 72)]) = .next t ∧ t.out = [72#8] :=
  next_of_check (by decide)

/-- The condition holds, and fails. -/
theorem witness_ConditionalMoveRule :
    (start [] [(3, 0x80000000)]).reg 3 ≠ 0#32 ∧ (start [] []).reg 3 = 0#32 := by decide

theorem witness_DivideRule :
    (start [] [(2, 1)]).reg 2 ≠ 0#32 ∧ (start [] []).reg 2 = 0#32 := by decide

/-- The last word of the segment; one past it; an unmapped identifier. -/
theorem witness_SegmentedLoadRule :
    let s := startMem [0#32] [(1, 3), (2, 2), (3, 3), (4, 1)] [(3, [10, 20, 30])] [2, 1] 4
    (s.mem.len (s.reg 1).toNat = some 3 ∧ (s.reg 2).toNat < 3) ∧
    (∀ n, s.mem.len (s.reg 1).toNat = some n → n ≤ (s.reg 3).toNat) ∧
    ∀ n, s.mem.len (s.reg 4).toNat = some n → n ≤ (s.reg 2).toNat := by
  refine ⟨by decide, fun n h => ?_, fun n h => ?_⟩
  · exact Nat.le_of_eq (Option.some.inj h).symm
  · cases h

theorem witness_SegmentedStoreRule :
    let s := startMem [0#32] [(1, 3), (2, 2), (3, 3), (4, 1)] [(3, [10, 20, 30])] [2, 1] 4
    (s.mem.len (s.reg 1).toNat = some 3 ∧ (s.reg 2).toNat < 3) ∧
    (∀ n, s.mem.len (s.reg 1).toNat = some n → n ≤ (s.reg 3).toNat) ∧
    ∀ n, s.mem.len (s.reg 4).toNat = some n → n ≤ (s.reg 2).toNat :=
  witness_SegmentedLoadRule

/-- The queue non-empty and the words fitting exactly; the queue empty and no bound. -/
theorem witness_MapSegmentRule :
    let s := { startMem [0#32] [(2, 3)] [] [2, 1] 3 with capacity := some 4 }
    let u := start [0#32] [(2, 3)]
    (s.Inv ∧ s.mem.free ≠ [] ∧ ∀ cap, s.capacity = some cap → s.mem.words + (s.reg 2).toNat ≤ cap) ∧
    u.Inv ∧ u.mem.free = [] ∧ u.mem.nid < 2 ^ 32 ∧
      ∀ cap, u.capacity = some cap → u.mem.words + (u.reg 2).toNat ≤ cap := by
  refine ⟨⟨by decide, by decide, fun cap h => ?_⟩, by decide, by decide, by decide, fun cap h => ?_⟩
  · cases h; decide
  · cases h

/-- A mapped identifier; identifier 0; an unmapped identifier. -/
theorem witness_UnmapSegmentRule :
    let s := startMem [0#32] [(1, 1), (2, 2)] [(1, [5])] [] 2
    (s.reg 1 ≠ 0#32 ∧ s.mem.mapped (s.reg 1).toNat = true) ∧ s.reg 0 = 0#32 ∧
      s.mem.mapped (s.reg 2).toNat = false := by decide

theorem witness_OutputRule :
    let s := start [] [(1, 255), (2, 256)]
    (s.reg 1).toNat ≤ 255 ∧ 255 < (s.reg 2).toNat := by decide

/-- A listed byte, the end-of-stream after the last of a finite input, and a byte of a stream without end. -/
theorem witness_InputRule :
    let s := { start [] [] with input := Oracle.finite [255] }
    s.input.answer s.inpos = .byte 255 ∧ { s with inpos := 1 }.input.answer 1 = .eof ∧
      { s with input := ⟨[], .always (.byte 0)⟩ }.input.answer s.inpos = .byte 0 := by decide

/-- A copy that fits exactly; identifier 0 as the source with no room left; an unmapped source. -/
theorem witness_LoadProgramRule :
    let s := { startMem [0#32] [(1, 1), (2, 9)] [(1, [5, 6])] [] 2 with capacity := some 4 }
    s.Inv ∧ (s.mem.len (s.reg 1).toNat = some 2 ∧ s.mem.len 0 = some 1 ∧ s.reg 1 ≠ 0#32 ∧
      ∀ cap, s.capacity = some cap → s.mem.words + 2 ≤ cap + 1) ∧
    (s.mem.len (s.reg 0).toNat = some 1 ∧ s.reg 0 = 0#32) ∧ s.mem.mapped (s.reg 2).toNat = false := by
  refine ⟨by decide, ⟨by decide, by decide, by decide, fun cap h => ?_⟩, by decide, by decide⟩
  cases h; decide

end Sys2Proof.Tests
end

/-! PROOF. What the five operations of the segment indexer do, in terms of the words each identifier holds
(20_memory.md R52 to R56). -/

namespace Sys2Proof.Machine

variable {m m' : Memory} {id off v src n : Word} {cap : Option Nat}

/-! ### MemRead sees the contents alone -/

/-- MemRead answers the word that the segment's sequence holds at the offset (R52). -/
theorem Memory.read_eq_ok_iff_contents : m.read id off = .ok v ↔
    ∃ ws, m.contents id.toNat = some ws ∧ ws[off.toNat]? = some v := by
  simp [Memory.read_eq_ok, Memory.contents, Segment.toWords_getElem?]

theorem Memory.len_eq_contents (i : Nat) : m.len i = (m.contents i).map List.length := by
  simp [Memory.len, Memory.contents, Function.comp_def]

/-- MemRead fails, always with OutOfBounds, where no mapped segment reaches the offset (R52). -/
theorem Memory.read_eq_error_iff_contents {e : Stop} : m.read id off = .error e ↔
    e = .raised .outOfBounds ∧ ∀ ws, m.contents id.toNat = some ws → ws.length ≤ off.toNat := by
  simp [Memory.read_eq_error, Memory.len_eq_contents]

/-- Identifiers that hold the same words, in one memory or in two, read alike. -/
theorem Memory.read_congr {id' : Word} (h : m'.contents id'.toNat = m.contents id.toNat) (off : Word) :
    m'.read id' off = m.read id off := by
  cases hr : m.read id off with
  | ok w => rwa [Memory.read_eq_ok_iff_contents, h, ← Memory.read_eq_ok_iff_contents]
  | error e => rwa [Memory.read_eq_error_iff_contents, h, ← Memory.read_eq_error_iff_contents]

theorem Memory.exists_read_of_lt_len {k : Nat} (hl : m.len id.toNat = some k) (ho : off.toNat < k) :
    ∃ w, m.read id off = .ok w := by
  obtain ⟨g, hg, rfl⟩ := Memory.len_eq_some.mp hl
  exact ⟨_, Memory.read_eq_ok.mpr ⟨g, hg, ho, rfl⟩⟩

/-! ### MemWrite -/

/-- MemWrite fails where MemRead fails and with the same fault (R53). -/
theorem Memory.write_eq_error_iff_read {e : Stop} : m.write id off v = .error e ↔ m.read id off = .error e :=
  Memory.write_eq_error.trans Memory.read_eq_error.symm

theorem Memory.exists_write_of_read {old : Word} (h : m.read id off = .ok old) (v : Word) :
    ∃ m', m.write id off v = .ok m' := by
  obtain ⟨g, hg, ho, -⟩ := Memory.read_eq_ok.mp h
  exact ⟨_, Memory.write_eq_ok.mpr ⟨g, hg, ho, rfl⟩⟩

theorem Memory.write_free (h : m.write id off v = .ok m') : m'.free = m.free := by
  obtain ⟨g, -, -, rfl⟩ := Memory.write_eq_ok.mp h
  rfl

theorem Memory.write_nid (h : m.write id off v = .ok m') : m'.nid = m.nid := by
  obtain ⟨g, -, -, rfl⟩ := Memory.write_eq_ok.mp h
  rfl

/-! ### Allocate, Deallocate and DuplicateIntoZero -/

theorem Memory.contents_put {l : List Nat} {k i j : Nat} {g : Segment} :
    (Memory.mk (Assoc.put i g m.seg) l k).contents j = if j = i then some g.toWords else m.contents j := by
  unfold Memory.contents
  rw [Memory.segment_put]
  split <;> rfl

theorem Memory.contents_del {l : List Nat} {k i j : Nat} :
    (Memory.mk (Assoc.del i m.seg) l k).contents j = if j = i then none else m.contents j := by
  unfold Memory.contents
  rw [Memory.segment_del]
  split <;> rfl

/-- Allocate binds n zero words to the identifier it answers and changes no other segment (R54). -/
theorem Memory.allocate_contents {i : Nat} (h : m.allocate cap n = .ok (i, m')) (j : Nat) :
    m'.contents j = if j = i then some (List.replicate n.toNat 0#32) else m.contents j := by
  obtain ⟨l, k, -, -, rfl⟩ := Memory.allocate_eq_ok.mp h
  rw [Memory.contents_put, Segment.zeros_toWords]

/-- Short of R70's limit on identifiers and with unbounded storage, Allocate answers the identifier the
policy of R54 selects, and leaves the queue and `nid` as the policy says. -/
theorem Memory.exists_allocate (n : Word) (h : m.free ≠ [] ∨ m.nid < Config.identLimit) :
    ∃ i m', m.pick = some (i, m'.free, m'.nid) ∧ m.allocate none n = .ok (i, m') := by
  cases hp : m.pick with
  | none =>
    obtain ⟨hf, hn⟩ := Memory.pick_eq_none.mp hp
    exact absurd h (by simp [hf, hn])
  | some p =>
    obtain ⟨i, l, k⟩ := p
    exact ⟨i, ⟨Assoc.put i (Segment.zeros n.toNat) m.seg, l, k⟩, rfl,
      Memory.allocate_eq_ok.mpr ⟨l, k, hp, rfl, rfl⟩⟩

/-- Deallocate discards what its identifier held and changes no other segment (R55). -/
theorem Memory.deallocate_contents (h : m.deallocate id = .ok m') (j : Nat) :
    m'.contents j = if j = id.toNat then none else m.contents j := by
  obtain ⟨-, -, rfl⟩ := Memory.deallocate_eq_ok.mp h
  exact Memory.contents_del

/-- After DuplicateIntoZero segment 0 holds the source's words, and every other segment what it held (R56). -/
theorem Memory.duplicateIntoZero_contents (h : m.duplicateIntoZero cap src = .ok m') (j : Nat) :
    m'.contents j = if j = 0 then m.contents src.toNat else m.contents j := by
  obtain ⟨g, hg, ⟨rfl, rfl⟩ | ⟨-, -, rfl⟩⟩ := Memory.duplicateIntoZero_eq_ok.mp h
  · split
    · next e => subst e; rfl
    · rfl
  · rw [Memory.contents_put, Memory.contents_eq_some.mpr ⟨g, hg, rfl⟩]

/-- A write into the copy that DuplicateIntoZero made is not seen in the source (R56, R59). -/
theorem Memory.write_copy_contents_source {m'' : Memory} (hs : src ≠ 0#32)
    (hd : m.duplicateIntoZero cap src = .ok m') (hw : m'.write 0#32 off v = .ok m'') :
    m''.contents src.toNat = m.contents src.toNat := by
  have hne : src.toNat ≠ 0 := BitVec.toNat_ne.mp hs
  rw [Memory.write_contents_other hw hne, Memory.duplicateIntoZero_contents hd, if_neg hne]

/-- A write into the source of DuplicateIntoZero is not seen in the copy (R56, R59). -/
theorem Memory.write_source_contents_copy {m'' : Memory} (hs : src ≠ 0#32)
    (hd : m.duplicateIntoZero cap src = .ok m') (hw : m'.write src off v = .ok m'') :
    m''.contents 0 = m.contents src.toNat := by
  have hne : src.toNat ≠ 0 := BitVec.toNat_ne.mp hs
  rw [Memory.write_contents_other hw hne.symm, Memory.duplicateIntoZero_contents hd, if_pos rfl]

end Sys2Proof.Machine

/-! PROOF. The statements of 20_memory.md: the five operations of the segment indexer (R52 to R56), no
aliasing (R59), and the fetch (R71). -/

namespace Sys2Proof.Machine

/-- Settles O9: segment 0 is mapped by the invariant, and the fetch is by definition the bounded read of it. -/
theorem fetchIsBoundedReadOfSegmentZero : Obligations.FetchIsBoundedReadOfSegmentZero := by
  intro s hinv hrun
  obtain ⟨-, zeroMapped, -⟩ := hinv
  obtain ⟨n, hn⟩ := Option.isSome_iff_exists.mp (Memory.mapped_eq_len 0 ▸ zeroMapped)
  refine ⟨n, hn, fun hlt => ?_, fun hge => ⟨rfl, s.raise .outOfBounds, ?_, ?_⟩⟩
  · obtain ⟨w, hw⟩ := Memory.exists_read_of_lt_len (id := 0#32) hn hlt
    exact ⟨w, hw, hw⟩
  · have beyond : ∀ k, s.mem.len 0 = some k → k ≤ s.pc.toNat := by simpa [hn] using hge
    exact step_next.mpr ⟨hrun, .inr (.inl ⟨rfl, beyond⟩)⟩
  · simp [SameRegs, SameMemory, SameStreams]

/-- Settles O26: MemWrite has the failures of MemRead, and its effect is `Memory.write_read`. -/
theorem memWriteRule : Obligations.MemWriteRule := by
  refine fun m id off v => ⟨fun ⟨e, he⟩ => ?_, fun old hold => ?_⟩
  · obtain ⟨rfl, -⟩ := Memory.read_eq_error.mp he
    exact Memory.write_eq_error_iff_read.mpr he
  · obtain ⟨m', hw⟩ := Memory.exists_write_of_read hold v
    refine ⟨m', hw, ?_, fun id' off' hne => ?_, Memory.write_len hw, Memory.write_free hw,
      Memory.write_nid hw⟩
    · rw [Memory.write_read hw, if_pos ⟨rfl, rfl⟩]
    · rw [Memory.write_read hw, if_neg hne]

/-- Settles O27: the selected identifier is what `Memory.pick_eq_some` says, and the invariant keeps it from
being 0. -/
theorem allocateRule : Obligations.AllocateRule := by
  intro m n hinv hroom
  obtain ⟨i, m', hp, ha⟩ := Memory.exists_allocate n hroom
  obtain ⟨-, hi0, -⟩ := Memory.pick_fresh hinv hp
  have policy := Memory.pick_eq_some.mp hp
  refine ⟨i, m', ha, hi0, fun first rest hf => ?_, fun hf => ?_, ?_, fun j hj => ?_⟩
  · rcases policy with ⟨hq, hnid⟩ | ⟨hq, -⟩
    · obtain ⟨hfirst, hrest⟩ := List.cons.inj (hf.symm.trans hq)
      exact ⟨hfirst.symm, hrest.symm, hnid⟩
    · cases hf.symm.trans hq
  · rcases policy with ⟨hq, -⟩ | ⟨-, -, hfresh⟩
    · cases hf.symm.trans hq
    · exact hfresh
  · rw [Memory.allocate_contents ha, if_pos rfl]
  · rw [Memory.allocate_contents ha, if_neg hj]

/-- Settles O28: the failures are those of `Memory.deallocate_eq_error`, the effect that of
`Memory.deallocate_contents`. -/
theorem deallocateRule : Obligations.DeallocateRule := by
  refine fun m id => ⟨fun h => Memory.deallocate_eq_error.mpr ⟨rfl, h⟩, fun h0 hm => ?_⟩
  have hd := Memory.deallocate_eq_ok.mpr ⟨h0, hm, rfl⟩
  refine ⟨_, hd, ?_, rfl, rfl, fun j hj => ?_⟩
  · rw [Memory.mapped_del, if_pos rfl]
  · rw [Memory.deallocate_contents hd, if_neg hj]

/-- Settles O29: what holds of the contents after the copy and after a later write to either segment. -/
theorem duplicateIntoZeroRule : Obligations.DuplicateIntoZeroRule := by
  refine fun m src => ⟨fun h => Memory.duplicateIntoZero_eq_error.mpr (.inl ⟨h, rfl⟩), fun hm => ?_,
    fun hs hm => ?_⟩
  · obtain ⟨g, hg⟩ := Memory.mapped_iff.mp hm
    exact Memory.duplicateIntoZero_eq_ok.mpr ⟨g, hg, .inl ⟨rfl, rfl⟩⟩
  · obtain ⟨g, hg⟩ := Memory.mapped_iff.mp hm
    have hd : m.duplicateIntoZero none src = .ok { m with seg := Assoc.put 0 g m.seg } :=
      Memory.duplicateIntoZero_eq_ok.mpr ⟨g, hg, .inr ⟨hs, rfl, rfl⟩⟩
    have hc := Memory.duplicateIntoZero_contents hd
    refine ⟨_, hd, by rw [hc, if_pos rfl], ?_, fun j hj => by rw [hc, if_neg hj], rfl, rfl,
      fun off v m'' => ⟨Memory.write_copy_contents_source hs hd, Memory.write_source_contents_copy hs hd⟩⟩
    rw [Memory.len_eq_contents, hc, if_pos rfl, Memory.len_eq_contents]

/-- Settles O32: a read depends on its own identifier's contents alone, and these a write to another identifier
leaves as they were. -/
theorem identifiersNeverShareStorage : Obligations.IdentifiersNeverShareStorage := by
  refine ⟨fun m m' id id' off off' v hne hw => ?_, fun m m1 m2 cap src off off' v hs hd => ⟨fun hw => ?_,
    fun hw => ?_⟩⟩
  · exact Memory.read_congr (Memory.write_contents_other hw (BitVec.toNat_ne.mp hne).symm) off'
  · exact Memory.read_congr (Memory.write_copy_contents_source hs hd hw) off'
  · exact Memory.read_congr (Memory.write_source_contents_copy hs hd hw) off'

/-- Settles O25: MemRead in terms of the segment's sequence of words. -/
theorem memReadRule : Obligations.MemReadRule := by
  refine fun m id off => ⟨fun hnone => ?_, fun ws hws => ⟨fun hle => ?_, fun v hv => ?_⟩⟩
  · exact Memory.read_eq_error_iff_contents.mpr ⟨rfl, by simp [hnone]⟩
  · exact Memory.read_eq_error_iff_contents.mpr ⟨rfl, by simpa [hws] using hle⟩
  · exact Memory.read_eq_ok_iff_contents.mpr ⟨ws, hws, hv⟩

end Sys2Proof.Machine

/-! PROOF. Which instruction raises which fault, and when (60_exceptions.md R201 to R206): said once for the
execute step and once for the whole step. -/

namespace Sys2Proof.Machine

section Faults

variable {s t : State} {i : Instr} {k : FaultKind}

/-- The faults of the execute step with their conditions, one constructor per instruction that can fault
(R202 to R205). -/
inductive Raises (s : State) : Instr → FaultKind → Prop where
  | segmentedLoad {a b c : Reg} (beyond : ∀ n, s.mem.len (s.reg b).toNat = some n → n ≤ (s.reg c).toNat) :
      Raises s (.segmentedLoad a b c) .outOfBounds
  | segmentedStore {a b c : Reg} (beyond : ∀ n, s.mem.len (s.reg a).toNat = some n → n ≤ (s.reg b).toNat) :
      Raises s (.segmentedStore a b c) .outOfBounds
  | loadProgram {b c : Reg} (unmapped : s.mem.mapped (s.reg b).toNat = false) :
      Raises s (.loadProgram b c) .outOfBounds
  | divide {a b c : Reg} (zero : s.reg c = 0#32) : Raises s (.divide a b c) .divideByZero
  | unmapSegment {c : Reg} (invalid : s.reg c = 0#32 ∨ s.mem.mapped (s.reg c).toNat = false) :
      Raises s (.unmapSegment c) .invalidDeallocation
  | output {c : Reg} (above : 255 < (s.reg c).toNat) : Raises s (.output c) .outputOutOfRange

/-- An instruction whose fault condition holds ends in that fault and in nothing else (R126, R206). -/
theorem exec_of_raises (h : Raises s i k) : exec i s = .next (s.raise k) := by
  cases h with
  | segmentedLoad h => exact exec_segmentedLoad_next.mpr (.inr ⟨rfl, h⟩)
  | segmentedStore h => exact exec_segmentedStore_next.mpr (.inr ⟨rfl, h⟩)
  | loadProgram h => exact exec_loadProgram_next.mpr (.inr ⟨rfl, h⟩)
  | divide h => exact exec_divide_next.mpr (.inr ⟨rfl, h⟩)
  | unmapSegment h => exact exec_unmapSegment_next.mpr (.inr ⟨rfl, h⟩)
  | output h => exact exec_output_next.mpr (.inr ⟨rfl, h⟩)

/-- An instruction completes, and then it keeps the status or halts, or its fault condition holds and it raises
that fault. -/
theorem exec_completes_or_raises (h : exec i s = .next t) :
    t.status = s.status ∨ t.status = .halted ∨ ∃ k, Raises s i k ∧ t = s.raise k := by
  cases i with
  | conditionalMove a b c =>
    simp only [exec, execConditionalMove, Host.Outcome.next.injEq] at h
    subst h
    split <;> exact .inl rfl
  | add a b c | multiply a b c | nand a b c | input c | loadValue a imm => cases h; exact .inl rfl
  | halt => cases h; exact .inr (.inl rfl)
  | mapSegment b c => obtain ⟨_, _, -, rfl⟩ := exec_mapSegment_next.mp h; exact .inl rfl
  | segmentedLoad a b c =>
    rcases exec_segmentedLoad_next.mp h with ⟨_, -, rfl⟩ | ⟨rfl, hr⟩
    · exact .inl rfl
    · exact .inr (.inr ⟨_, .segmentedLoad hr, rfl⟩)
  | segmentedStore a b c =>
    rcases exec_segmentedStore_next.mp h with ⟨_, -, rfl⟩ | ⟨rfl, hr⟩
    · exact .inl rfl
    · exact .inr (.inr ⟨_, .segmentedStore hr, rfl⟩)
  | divide a b c =>
    rcases exec_divide_next.mp h with ⟨-, rfl⟩ | ⟨rfl, hr⟩
    · exact .inl rfl
    · exact .inr (.inr ⟨_, .divide hr, rfl⟩)
  | unmapSegment c =>
    rcases exec_unmapSegment_next.mp h with ⟨_, -, rfl⟩ | ⟨rfl, hr⟩
    · exact .inl rfl
    · exact .inr (.inr ⟨_, .unmapSegment hr, rfl⟩)
  | output c =>
    rcases exec_output_next.mp h with ⟨-, rfl⟩ | ⟨rfl, hr⟩
    · exact .inl rfl
    · exact .inr (.inr ⟨_, .output hr, rfl⟩)
  | loadProgram b c =>
    rcases exec_loadProgram_next.mp h with ⟨_, -, rfl⟩ | ⟨rfl, hr⟩
    · exact .inl rfl
    · exact .inr (.inr ⟨_, .loadProgram hr, rfl⟩)

/-- From a running state, the execute step ends in a fault exactly under the condition for it. -/
theorem exec_faulted_iff (hrun : s.status = .running) :
    (exec i s = .next t ∧ t.status = .faulted k) ↔ Raises s i k ∧ t = s.raise k := by
  constructor
  · rintro ⟨h, hk⟩
    rcases exec_completes_or_raises h with same | halted | ⟨k', hr, rfl⟩
    · simp [same, hrun] at hk
    · simp [halted] at hk
    · cases hk
      exact ⟨hr, rfl⟩
  · rintro ⟨hr, rfl⟩
    exact ⟨exec_of_raises hr, rfl⟩

/-- The faulting steps of a running machine, said once: the instruction's fault, the fetch's or the decoder's,
and in each case the next state is the old one with its new status (R200, R206). -/
theorem step_faulted_iff (hrun : s.status = .running) :
    (step s = .next t ∧ t.status = .faulted k) ↔ t = s.raise k ∧
      ((∃ i, s.nextInstr = some i ∧ Raises s i k) ∨
        (k = .outOfBounds ∧ ∀ n, s.mem.len 0 = some n → n ≤ s.pc.toNat) ∨
        (k = .decodeFault ∧ ∃ w, s.fetch = .ok w ∧ decode w = .error .invalidOpcode)) := by
  constructor
  · rintro ⟨h, hk⟩
    obtain ⟨-, ⟨i, hi, he⟩ | ⟨rfl, hl⟩ | ⟨rfl, hw⟩⟩ := step_next.mp h
    · obtain ⟨hr, rfl⟩ := (exec_faulted_iff hrun).mp ⟨he, hk⟩
      exact ⟨rfl, .inl ⟨i, State.nextInstr_eq_some.mpr hi, hr⟩⟩
    · cases hk
      exact ⟨rfl, .inr (.inl ⟨rfl, hl⟩)⟩
    · cases hk
      exact ⟨rfl, .inr (.inr ⟨rfl, hw⟩)⟩
  · rintro ⟨rfl, cause⟩
    refine ⟨step_next.mpr ⟨hrun, ?_⟩, rfl⟩
    rcases cause with ⟨i, hi, hr⟩ | ⟨rfl, hl⟩ | ⟨rfl, hw⟩
    · exact .inl ⟨i, State.nextInstr_eq_some.mp hi, exec_of_raises hr⟩
    · exact .inr (.inl ⟨rfl, hl⟩)
    · exact .inr (.inr ⟨rfl, hw⟩)

/-- Whether a running machine's step raises a fault, without the state it leaves. -/
theorem step_raises_iff (hrun : s.status = .running) :
    (∃ t, step s = .next t ∧ t.status = .faulted k) ↔
      (∃ i, s.nextInstr = some i ∧ Raises s i k) ∨
        (k = .outOfBounds ∧ ∀ n, s.mem.len 0 = some n → n ≤ s.pc.toNat) ∨
        (k = .decodeFault ∧ ∃ w, s.fetch = .ok w ∧ decode w = .error .invalidOpcode) := by
  simp only [step_faulted_iff hrun, exists_eq_left]

/-- The decoder rejects exactly the opcodes 14 and 15 (R100). -/
theorem decode_eq_invalidOpcode {w : Word} :
    decode w = .error .invalidOpcode ↔ opField w = 14#4 ∨ opField w = 15#4 := by
  rw [decode_eq_error]
  bv_omega

end Faults

end Sys2Proof.Machine

/-! PROOF. The statements of 60_exceptions.md: the exact conditions of OutOfBounds (R202), DecodeFault (R201),
DivideByZero (R203) and InvalidDeallocation (R204). -/

namespace Sys2Proof.Machine

/-- Settles O13: beside the fetch, the instructions that `Raises` this fault are the three named. -/
theorem outOfBoundsInExactlyFourPlaces : Obligations.OutOfBoundsInExactlyFourPlaces := by
  intro s hrun
  rw [step_raises_iff hrun]
  constructor
  · rintro (⟨i, hi, hr⟩ | ⟨-, hl⟩ | ⟨hk, -⟩)
    · cases hr with
      | segmentedLoad h => exact .inr (.inl ⟨_, _, _, hi, h⟩)
      | segmentedStore h => exact .inr (.inr (.inl ⟨_, _, _, hi, h⟩))
      | loadProgram h => exact .inr (.inr (.inr ⟨_, _, hi, h⟩))
    · exact .inl hl
    · cases hk
  · rintro (hl | ⟨a, b, c, hi, h⟩ | ⟨a, b, c, hi, h⟩ | ⟨b, c, hi, h⟩)
    · exact .inr (.inl ⟨rfl, hl⟩)
    · exact .inl ⟨_, hi, .segmentedLoad h⟩
    · exact .inl ⟨_, hi, .segmentedStore h⟩
    · exact .inl ⟨_, hi, .loadProgram h⟩

/-- Settles O14: no instruction raises this fault, so the decoder's rejection is its only cause. -/
theorem decodeFaultExactlyOnInvalidOpcode : Obligations.DecodeFaultExactlyOnInvalidOpcode := by
  refine fun s hrun => ⟨?_, fun t h hk => ?_⟩
  · simp only [step_raises_iff hrun, decode_eq_invalidOpcode, reduceCtorEq, false_and, true_and, false_or]
    refine or_iff_right fun ⟨i, _, hr⟩ => ?_
    cases hr
  · obtain ⟨rfl, -⟩ := (step_faulted_iff hrun).mp ⟨h, hk⟩
    simp [SameRegs, SameMemory, SameStreams]

/-- Settles O15: each of the two faults is raised by one instruction alone, and by neither fetch nor decode. -/
theorem divideAndUnmapFaultsExactly : Obligations.DivideAndUnmapFaultsExactly := by
  intro s hrun
  simp only [step_raises_iff hrun, reduceCtorEq, false_and, or_false]
  refine ⟨⟨fun ⟨i, hi, hr⟩ => ?_, fun ⟨a, b, c, hi, h⟩ => ⟨_, hi, .divide h⟩⟩,
    ⟨fun ⟨i, hi, hr⟩ => ?_, fun ⟨c, hi, h⟩ => ⟨_, hi, .unmapSegment h⟩⟩⟩
  · cases hr with
    | divide h => exact ⟨_, _, _, hi, h⟩
  · cases hr with
    | unmapSegment h => exact ⟨_, hi, h⟩

end Sys2Proof.Machine

/-! PROOF. The decoder and the encoder are each other's inverse up to the ignored bits (30_encoding.md R97, R103),
and the lines an assembler accepts are those that write an instruction (R104). -/

namespace Sys2Proof

variable {w m : Word} {i : Instr} {k : Nat} {a b c : Reg}

/-! ### Decoding an encoded instruction -/

theorem opField_encode (i : Instr) : (opField (encode i)).toNat = i.opcode := by
  cases i with
  | loadValue a2 imm => simp [encode, opField_encodeImm, Instr.opcode]
  | _ => simp [encode, opField_encodeThree, Instr.opcode]

/-- The decoder reads every operand back from the canonical word (R103). -/
theorem decode_encode (i : Instr) : decode (encode i) = .ok i := by
  cases i with
  | loadValue a2 imm => simp [decode, encode, opField_encodeImm]
  | _ => simp [decode, encode, opField_encodeThree]

/-! ### Encoding what a word decodes to -/

/-- A word is its own part under a mask exactly when it has no bit outside the mask. -/
theorem and_mask_eq_self_iff : w &&& m = w ↔ w &&& ~~~m = 0#32 := by
  simp only [BitVec.eq_of_getLsbD_eq_iff]
  refine forall₂_congr fun j hj => ?_
  rw [BitVec.getLsbD_and, BitVec.getLsbD_and, BitVec.getLsbD_not]
  cases w.getLsbD j <;> cases m.getLsbD j <;> simp [hj]

/-- A slice put back where it was cut from is the word under the slice's mask. -/
theorem slice_shiftLeft (w : Word) (lo n : Nat) :
    (w.extractLsb' lo n).setWidth 32 <<< lo = w &&& ((BitVec.allOnes n).setWidth 32 <<< lo) := by
  ext j hj
  by_cases hlo : j < lo
  · simp [hlo]
  · simp [hlo, show lo + (j - lo) = j by omega, BitVec.getLsbD_eq_getElem hj, Bool.and_comm]

theorem regBits_toFin (x : BitVec 3) : regBits x.toFin = x.setWidth 32 := by
  simp [regBits, BitVec.ofNat_toNat]

theorem opcode_shiftLeft (h : (opField w).toNat = k) : BitVec.ofNat 32 k <<< 28 = w &&& 0xF0000000#32 := by
  subst h
  rw [BitVec.ofNat_toNat]
  exact slice_shiftLeft w 28 4

theorem regBits_fieldA (w : Word) : regBits (fieldA w) <<< 6 = w &&& 0x1C0#32 := by
  rw [fieldA, regBits_toFin]
  exact slice_shiftLeft w 6 3

theorem regBits_fieldB (w : Word) : regBits (fieldB w) <<< 3 = w &&& 0x38#32 := by
  rw [fieldB, regBits_toFin]
  exact slice_shiftLeft w 3 3

theorem regBits_fieldC (w : Word) : regBits (fieldC w) = w &&& 7#32 := by
  rw [fieldC, regBits_toFin]
  simpa using slice_shiftLeft w 0 3

theorem regBits_fieldA2 (w : Word) : regBits (fieldA2 w) <<< 25 = w &&& 0xE000000#32 := by
  rw [fieldA2, regBits_toFin]
  exact slice_shiftLeft w 25 3

theorem setWidth_fieldImm (w : Word) : (fieldImm w).setWidth 32 = w &&& 0x1FFFFFF#32 := by
  simpa [fieldImm] using slice_shiftLeft w 0 25

theorem encodeThree_fieldsABC (h : (opField w).toNat = k) :
    encodeThree k (fieldA w) (fieldB w) (fieldC w) = w &&& 0xF00001FF#32 := by
  rw [encodeThree, opcode_shiftLeft h, regBits_fieldA, regBits_fieldB, regBits_fieldC]
  simp only [← BitVec.and_or_distrib_left]
  rfl

theorem encodeThree_fieldsBC (h : (opField w).toNat = k) :
    encodeThree k 0 (fieldB w) (fieldC w) = w &&& 0xF000003F#32 := by
  rw [encodeThree, opcode_shiftLeft h, regBits_fieldB, regBits_fieldC]
  simp [regBits, ← BitVec.and_or_distrib_left]

theorem encodeThree_fieldC (h : (opField w).toNat = k) :
    encodeThree k 0 0 (fieldC w) = w &&& 0xF0000007#32 := by
  rw [encodeThree, opcode_shiftLeft h, regBits_fieldC]
  simp [regBits, ← BitVec.and_or_distrib_left]

theorem encodeThree_opcode (h : (opField w).toNat = k) : encodeThree k 0 0 0 = w &&& 0xF0000000#32 := by
  rw [encodeThree, opcode_shiftLeft h]
  simp [regBits]

theorem encodeImm_fields (h : (opField w).toNat = 13) : encodeImm (fieldA2 w) (fieldImm w) = w := by
  rw [encodeImm, opcode_shiftLeft h, regBits_fieldA2, setWidth_fieldImm, ← BitVec.and_or_distrib_left,
    ← BitVec.and_or_distrib_left]
  exact BitVec.and_allOnes

/-- The canonical word of what a word decodes to keeps the used bits and clears the others (R103). -/
theorem encode_of_decode (h : decode w = .ok i) : encode i = w &&& usedBits i := by
  have hop := decode_opcode w h
  unfold decode at h
  split at h <;> cases h
  case h_14 => exact (encodeImm_fields hop).trans BitVec.and_allOnes.symm
  case h_8 => exact encodeThree_opcode hop
  case h_9 | h_13 => exact encodeThree_fieldsBC hop
  case h_10 | h_11 | h_12 => exact encodeThree_fieldC hop
  all_goals exact encodeThree_fieldsABC hop

/-! ### Decoding a word from its used bits -/

/-- A slice that lies under a mask is the same slice of the masked word. -/
theorem slice_and_mask {lo n : Nat} (h : m.extractLsb' lo n = BitVec.allOnes n) :
    (w &&& m).extractLsb' lo n = w.extractLsb' lo n := by
  rw [BitVec.extractLsb'_and, h, BitVec.and_allOnes]

theorem opField_and_usedBits (w : Word) (i : Instr) : opField (w &&& usedBits i) = opField w := by
  refine slice_and_mask ?_
  rcases usedBits_values i with h | h | h | h | h <;> rw [h] <;> rfl

theorem fieldA_and_mask (h : m.extractLsb' 6 3 = BitVec.allOnes 3) : fieldA (w &&& m) = fieldA w := by
  rw [fieldA, slice_and_mask h, fieldA]

theorem fieldB_and_mask (h : m.extractLsb' 3 3 = BitVec.allOnes 3) : fieldB (w &&& m) = fieldB w := by
  rw [fieldB, slice_and_mask h, fieldB]

theorem fieldC_and_mask (h : m.extractLsb' 0 3 = BitVec.allOnes 3) : fieldC (w &&& m) = fieldC w := by
  rw [fieldC, slice_and_mask h, fieldC]

/-- The decoder sees the used bits alone (R97). -/
theorem decode_and_usedBits (hop : (opField w).toNat = i.opcode) : decode (w &&& usedBits i) = decode w := by
  rw [decode, decode, opField_and_usedBits, hop]
  cases i with
  | loadValue a2 imm => rw [show w &&& usedBits (.loadValue a2 imm) = w from BitVec.and_allOnes]
  | _ => simp [Instr.opcode, usedBits, fieldA_and_mask, fieldB_and_mask, fieldC_and_mask]

/-- A word whose used bits are those of an instruction's canonical word decodes to that instruction (R97). -/
theorem decode_of_usedBits (h : encode i = w &&& usedBits i) : decode w = .ok i := by
  have hop : (opField w).toNat = i.opcode := by rw [← opField_and_usedBits w i, ← h, opField_encode]
  rw [← decode_and_usedBits hop, ← h, decode_encode]

/-- A word decodes to an instruction exactly when its used bits are the instruction's canonical word. -/
theorem decode_eq_ok_iff : decode w = .ok i ↔ encode i = w &&& usedBits i :=
  ⟨encode_of_decode, decode_of_usedBits⟩

/-! ### The assembler -/

theorem regOf_val_of_le {n : Nat} (h : n ≤ 7) : (regOf n).val = n := by
  simp [regOf]; omega

/-- An assembler accepts the line that writes any instruction, and gives its canonical word (R104). -/
theorem assemble_line (i : Instr) : assemble i.line = some (encode i) := by
  cases i
  case conditionalMove => exact (Laws.AssembledLine.conditionalMove ..).2
  case segmentedLoad => exact (Laws.AssembledLine.segmentedLoad ..).2
  case segmentedStore => exact (Laws.AssembledLine.segmentedStore ..).2
  case add => exact (Laws.AssembledLine.add ..).2
  case multiply => exact (Laws.AssembledLine.multiply ..).2
  case divide => exact (Laws.AssembledLine.divide ..).2
  case nand => exact (Laws.AssembledLine.nand ..).2
  case halt => exact Laws.AssembledLine.halt.2
  case mapSegment => exact (Laws.AssembledLine.mapSegment ..).2
  case unmapSegment => exact (Laws.AssembledLine.unmapSegment ..).2
  case output => exact (Laws.AssembledLine.output ..).2
  case input => exact (Laws.AssembledLine.input ..).2
  case loadProgram => exact (Laws.AssembledLine.loadProgram ..).2
  case loadValue => exact (Laws.AssembledLine.loadValue ..).2

/-- The instruction that the operands of a well-formed line name is written by that very line (R104). -/
theorem line_of_instrOf {name : Mnemonic} {regs : List Nat} {imm : Option Nat}
    (hwf : (Line.op name regs imm).wellFormed = true) (h : instrOf name regs imm = some i) :
    i.line = .op name regs imm := by
  unfold instrOf at h
  split at h <;> cases h <;> simp [Line.wellFormed, Mnemonic.arity, Mnemonic.immOk] at hwf
  case h_14 =>
    obtain ⟨ha, hv⟩ := hwf
    simp [Instr.line, regOf_val_of_le ha]
    omega
  all_goals simp [Instr.line, regOf_val_of_le, hwf]

end Sys2Proof

/-! PROOF. The statements of 30_encoding.md: the round trips, the ignored bits, the illegal words, the words of
R106 and the assembler. -/

namespace Sys2Proof

/-- Settles O1: the opcode selects the shape, and each field reads back. -/
theorem decodeOfEncodeGivesInstruction : Obligations.DecodeOfEncodeGivesInstruction :=
  decode_encode

/-- Settles O2: the canonical word is the word under the mask of the used bits. -/
theorem encodeOfDecodeClearsIgnoredBits : Obligations.EncodeOfDecodeClearsIgnoredBits := by
  intro w i h
  have canonical := encode_of_decode h
  exact ⟨canonical, by rw [canonical, and_mask_eq_self_iff]⟩

/-- Settles O3: by `decode_eq_ok_iff` the used bits alone decide what a word decodes to. -/
theorem ignoredBitsTakeNoPart : Obligations.IgnoredBitsTakeNoPart := by
  intro w w' i h same
  rw [decode_eq_ok_iff] at h ⊢
  exact h.trans same

/-- Settles O4: the opcode is the word's quotient by 2^28, so it is 14 or more from 14 * 2^28 on. -/
theorem illegalWordsAreTopRange : Obligations.IllegalWordsAreTopRange := by
  intro w
  have quotient : (opField w).toNat = w.toNat / 2 ^ 28 := by
    have := w.isLt
    simp [opField, BitVec.extractLsb'_toNat, Nat.shiftRight_eq_div_pow]
    omega
  rw [decode_eq_error, quotient]
  omega

/-- Settles O5: the decoder evaluated at each word. -/
theorem writtenOutWordsDecode : Obligations.WrittenOutWordsDecode := by
  unfold Obligations.WrittenOutWordsDecode
  decide

/-- Settles O6: a line that is accepted writes the instruction its operands name, and every instruction's line is
accepted. -/
theorem assemblerAcceptsExactlyInstructionLines : Obligations.AssemblerAcceptsExactlyInstructionLines := by
  intro name regs imm w
  constructor
  · intro h
    by_cases hwf : (Line.op name regs imm).wellFormed = true
    · simp only [assemble, hwf, if_true, Option.map_eq_some_iff] at h
      obtain ⟨i, hi, rfl⟩ := h
      exact ⟨i, line_of_instrOf hwf hi, rfl⟩
    · simp [assemble, hwf] at h
  · rintro ⟨i, hline, rfl⟩
    exact hline ▸ assemble_line i

end Sys2Proof

/-! PROOF. Every outcome of the execute step and of the whole step, said once: an instruction completes with its
rule's effect, raises a fault, or is refused (40_execution_loop.md R121 to R126, 20_memory.md R70). -/

namespace Sys2Proof.Machine

section Outcomes

variable {s s' t : State} {i : Instr} {k : FaultKind} {q : Refusal}

/-! ### The execute step -/

/-- The next states of the instructions that complete: the effect of each one's rule, with the condition under which
it completes. -/
inductive Completes (s : State) : Instr → State → Prop where
  | move {a b c : Reg} (holds : s.reg c ≠ 0#32) :
      Completes s (.conditionalMove a b c) (s.setReg a (s.reg b)).advance
  | skip {a b c : Reg} (fails : s.reg c = 0#32) : Completes s (.conditionalMove a b c) s.advance
  | segmentedLoad {a b c : Reg} {v : Word} (read : s.mem.read (s.reg b) (s.reg c) = .ok v) :
      Completes s (.segmentedLoad a b c) (s.setReg a v).advance
  | segmentedStore {a b c : Reg} {m : Memory} (write : s.mem.write (s.reg a) (s.reg b) (s.reg c) = .ok m) :
      Completes s (.segmentedStore a b c) (s.setMem m).advance
  | add {a b c : Reg} : Completes s (.add a b c) (s.setReg a (s.reg b + s.reg c)).advance
  | multiply {a b c : Reg} : Completes s (.multiply a b c) (s.setReg a (s.reg b * s.reg c)).advance
  | divide {a b c : Reg} (nonzero : s.reg c ≠ 0#32) :
      Completes s (.divide a b c) (s.setReg a (s.reg b / s.reg c)).advance
  | nand {a b c : Reg} : Completes s (.nand a b c) (s.setReg a (~~~(s.reg b &&& s.reg c))).advance
  | halt : Completes s .halt s.halt
  | mapSegment {b c : Reg} {id : Nat} {m : Memory}
      (allocate : s.mem.allocate s.capacity (s.reg c) = .ok (id, m)) :
      Completes s (.mapSegment b c) ((s.setMem m).setReg b (identWord id)).advance
  | unmapSegment {c : Reg} {m : Memory} (deallocate : s.mem.deallocate (s.reg c) = .ok m) :
      Completes s (.unmapSegment c) (s.setMem m).advance
  | output {c : Reg} (small : (s.reg c).toNat ≤ 255) :
      Completes s (.output c) (s.emit ((s.reg c).setWidth 8)).advance
  | input {c : Reg} : Completes s (.input c) (s.consume.setReg c (answerWord s.answer)).advance
  | loadProgram {b c : Reg} {m : Memory}
      (duplicate : s.mem.duplicateIntoZero s.capacity (s.reg b) = .ok m) :
      Completes s (.loadProgram b c) ((s.setMem m).setPc (s.reg c))
  | loadValue {a2 : Reg} {imm : BitVec 25} : Completes s (.loadValue a2 imm) (s.setReg a2 (immWord imm)).advance

theorem exec_conditionalMove_of_ne {a b c : Reg} (h : s.reg c ≠ 0#32) :
    exec (.conditionalMove a b c) s = .next (s.setReg a (s.reg b)).advance := by
  simp [exec, execConditionalMove, conditionHolds, h]

theorem exec_conditionalMove_of_eq {a b c : Reg} (h : s.reg c = 0#32) :
    exec (.conditionalMove a b c) s = .next s.advance := by
  simp [exec, execConditionalMove, conditionHolds, h]

theorem exec_of_completes (h : Completes s i t) : exec i s = .next t := by
  cases h with
  | move h => exact exec_conditionalMove_of_ne h
  | skip h => exact exec_conditionalMove_of_eq h
  | segmentedLoad h => exact exec_segmentedLoad_next.mpr (.inl ⟨_, h, rfl⟩)
  | segmentedStore h => exact exec_segmentedStore_next.mpr (.inl ⟨_, h, rfl⟩)
  | divide h => exact exec_divide_next.mpr (.inl ⟨h, rfl⟩)
  | mapSegment h => exact exec_mapSegment_next.mpr ⟨_, _, h, rfl⟩
  | unmapSegment h => exact exec_unmapSegment_next.mpr (.inl ⟨_, h, rfl⟩)
  | output h => exact exec_output_next.mpr (.inl ⟨h, rfl⟩)
  | loadProgram h => exact exec_loadProgram_next.mpr (.inl ⟨_, h, rfl⟩)
  | add | multiply | nand | halt | input | loadValue => rfl

/-- The next states of the execute step: the instruction completes, or it raises its fault. -/
theorem exec_next_iff : exec i s = .next t ↔ Completes s i t ∨ ∃ k, Raises s i k ∧ t = s.raise k := by
  constructor
  · intro h
    cases i with
    | conditionalMove a b c =>
      by_cases hc : s.reg c = 0#32
      · rw [exec_conditionalMove_of_eq hc] at h
        cases h
        exact .inl (.skip hc)
      · rw [exec_conditionalMove_of_ne hc] at h
        cases h
        exact .inl (.move hc)
    | segmentedLoad a b c =>
      rcases exec_segmentedLoad_next.mp h with ⟨v, hv, rfl⟩ | ⟨rfl, hr⟩
      · exact .inl (.segmentedLoad hv)
      · exact .inr ⟨_, .segmentedLoad hr, rfl⟩
    | segmentedStore a b c =>
      rcases exec_segmentedStore_next.mp h with ⟨m, hm, rfl⟩ | ⟨rfl, hr⟩
      · exact .inl (.segmentedStore hm)
      · exact .inr ⟨_, .segmentedStore hr, rfl⟩
    | add a b c => cases h; exact .inl .add
    | multiply a b c => cases h; exact .inl .multiply
    | divide a b c =>
      rcases exec_divide_next.mp h with ⟨hc, rfl⟩ | ⟨rfl, hr⟩
      · exact .inl (.divide hc)
      · exact .inr ⟨_, .divide hr, rfl⟩
    | nand a b c => cases h; exact .inl .nand
    | halt => cases h; exact .inl .halt
    | mapSegment b c =>
      obtain ⟨id, m, hm, rfl⟩ := exec_mapSegment_next.mp h
      exact .inl (.mapSegment hm)
    | unmapSegment c =>
      rcases exec_unmapSegment_next.mp h with ⟨m, hm, rfl⟩ | ⟨rfl, hr⟩
      · exact .inl (.unmapSegment hm)
      · exact .inr ⟨_, .unmapSegment hr, rfl⟩
    | output c =>
      rcases exec_output_next.mp h with ⟨hc, rfl⟩ | ⟨rfl, hr⟩
      · exact .inl (.output hc)
      · exact .inr ⟨_, .output hr, rfl⟩
    | input c => cases h; exact .inl .input
    | loadProgram b c =>
      rcases exec_loadProgram_next.mp h with ⟨m, hm, rfl⟩ | ⟨rfl, hr⟩
      · exact .inl (.loadProgram hm)
      · exact .inr ⟨_, .loadProgram hr, rfl⟩
    | loadValue a2 imm => cases h; exact .inl .loadValue
  · rintro (h | ⟨k, hr, rfl⟩)
    · exact exec_of_completes h
    · exact exec_of_raises hr

/-- The refusals: an allocation or a copy into segment 0 that is refused (R70). -/
inductive Refuses (s : State) : Instr → Refusal → Prop where
  | mapSegment {b c : Reg} {q : Refusal}
      (allocate : s.mem.allocate s.capacity (s.reg c) = .error (.refused q)) : Refuses s (.mapSegment b c) q
  | loadProgram {b c : Reg} {q : Refusal}
      (duplicate : s.mem.duplicateIntoZero s.capacity (s.reg b) = .error (.refused q)) :
      Refuses s (.loadProgram b c) q

theorem exec_refused_iff : exec i s = .refused q ↔ Refuses s i q := by
  constructor
  · intro h
    cases i with
    | mapSegment b c =>
      rcases State.attempt_eq_refused.mp h with ⟨_, _, hn⟩ | hr
      · cases hn
      · exact .mapSegment hr
    | loadProgram b c =>
      rcases State.attempt_eq_refused.mp h with ⟨_, _, hn⟩ | hr
      · cases hn
      · exact .loadProgram hr
    | segmentedLoad a b c | segmentedStore a b c | divide a b c | unmapSegment c | output c =>
      rcases State.attempt_eq_refused.mp h with ⟨_, _, hn⟩ | hr
      · cases hn
      · simp [Memory.read_eq_error, Memory.write_eq_error, aluDivide_eq_error, Memory.deallocate_eq_error,
          outputByte_eq_error] at hr
    | _ => cases h
  · rintro (hr | hr)
    · exact State.attempt_eq_refused.mpr (.inr hr)
    · exact State.attempt_eq_refused.mpr (.inr hr)

theorem Refuses.resourceExhausted (h : Refuses s i q) : q = .resourceExhausted := by
  cases h with
  | mapSegment h =>
    obtain ⟨e, -⟩ := Memory.allocate_eq_error.mp h
    exact Stop.refused.inj e
  | loadProgram h =>
    rcases Memory.duplicateIntoZero_eq_error.mp h with ⟨-, e⟩ | ⟨-, e, -⟩
    · cases e
    · exact Stop.refused.inj e

/-! ### What a completed instruction leaves alone -/

theorem Completes.capacity (h : Completes s i t) : t.capacity = s.capacity := by
  cases h <;> rfl

theorem Completes.input_eq (h : Completes s i t) : t.input = s.input := by
  cases h <;> rfl

/-- The status stays, but for Halt (R121, R170). -/
theorem Completes.status (h : Completes s i t) :
    (i = .halt ∧ t.status = .halted) ∨ (i ≠ .halt ∧ t.status = s.status) := by
  cases h
  case halt => exact .inl ⟨rfl, rfl⟩
  all_goals exact .inr ⟨nofun, rfl⟩

/-- The pc moves to the next word, but for Halt and LoadProgram (R124). -/
theorem Completes.pc (h : Completes s i t) : i = .halt ∨ (∃ b c, i = .loadProgram b c ∧ t.pc = s.reg c) ∨
    ((∀ b c, i ≠ .loadProgram b c) ∧ t.pc = s.pc + 1) := by
  cases h
  case halt => exact .inl rfl
  case loadProgram => exact .inr (.inl ⟨_, _, rfl, rfl⟩)
  all_goals exact .inr (.inr ⟨nofun, rfl⟩)

/-- The output grows by the byte of an Output alone (R192). -/
theorem Completes.out (h : Completes s i t) : ((∀ c, i ≠ .output c) ∧ t.out = s.out) ∨
    ∃ c, i = .output c ∧ (s.reg c).toNat ≤ 255 ∧ t.out = s.out ++ [(s.reg c).setWidth 8] := by
  cases h
  case output h => exact .inr ⟨_, rfl, h, rfl⟩
  all_goals exact .inl ⟨nofun, rfl⟩

/-- An answer is consumed by an Input alone (R193). -/
theorem Completes.inpos (h : Completes s i t) :
    ((∀ c, i ≠ .input c) ∧ t.inpos = s.inpos) ∨ ∃ c, i = .input c ∧ t.inpos = s.inpos + 1 := by
  cases h
  case input => exact .inr ⟨_, rfl, rfl⟩
  all_goals exact .inl ⟨nofun, rfl⟩

/-! ### The whole step -/

theorem State.nextInstr_eq_none : s.nextInstr = none ↔ ∃ e, s.fetchInstr = .error e := by
  unfold State.nextInstr
  cases s.fetchInstr <;> simp [Except.toOption]

/-- A fetch or a decode that fails raises a fault; neither is ever refused. -/
theorem State.fetchInstr_error_raised {e : Stop} (h : s.fetchInstr = .error e) : ∃ k, e = .raised k := by
  rcases State.fetchInstr_eq_error.mp h with hf | ⟨rfl, -⟩
  · exact ⟨_, (Memory.read_eq_error.mp hf).1⟩
  · exact ⟨_, rfl⟩

theorem step_of_nextInstr (hrun : s.status = .running) (hi : s.nextInstr = some i) : step s = exec i s := by
  rw [step_running hrun, State.nextInstr_eq_some.mp hi, State.attempt_ok]

theorem step_of_nextInstr_eq_none (hrun : s.status = .running) (h : s.nextInstr = none) :
    ∃ k, s.fetchInstr = .error (.raised k) ∧ step s = .next (s.raise k) := by
  obtain ⟨e, he⟩ := State.nextInstr_eq_none.mp h
  obtain ⟨k, rfl⟩ := State.fetchInstr_error_raised he
  exact ⟨k, he, by rw [step_running hrun, he, State.attempt_raised]⟩

theorem running_of_step (h : step s = .next t) : s.status = .running := (step_next.mp h).1

/-- A step that answers a next state: the fetched instruction completes or raises its fault, or none was fetched. -/
theorem step_cases (h : step s = .next t) :
    (∃ i, s.nextInstr = some i ∧ Completes s i t) ∨
      (∃ i k, s.nextInstr = some i ∧ Raises s i k ∧ t = s.raise k) ∨
      (s.nextInstr = none ∧ ∃ k, t = s.raise k) := by
  have hrun := running_of_step h
  cases hi : s.nextInstr with
  | none =>
    obtain ⟨k, -, hk⟩ := step_of_nextInstr_eq_none hrun hi
    rw [hk] at h
    cases h
    exact .inr (.inr ⟨rfl, k, rfl⟩)
  | some i =>
    rw [step_of_nextInstr hrun hi] at h
    rcases exec_next_iff.mp h with hc | ⟨k, hr, rfl⟩
    · exact .inl ⟨i, rfl, hc⟩
    · exact .inr (.inl ⟨i, k, rfl, hr, rfl⟩)

/-- A step that leaves the machine running completed its instruction. -/
theorem completes_of_running (h : step s = .next t) (ht : t.status = .running) :
    ∃ i, s.nextInstr = some i ∧ Completes s i t := by
  rcases step_cases h with hc | ⟨i, k, -, -, rfl⟩ | ⟨-, k, rfl⟩
  · exact hc
  · cases ht
  · cases ht

theorem step_refused_iff :
    step s = .refused q ↔ s.status = .running ∧ ∃ i, s.nextInstr = some i ∧ Refuses s i q := by
  constructor
  · intro h
    have hrun : s.status = .running := by
      rw [← State.stopped_eq_none]
      cases e : s.stopped with
      | none => rfl
      | some f => simp [step, e] at h
    cases hi : s.nextInstr with
    | none =>
      obtain ⟨k, -, hk⟩ := step_of_nextInstr_eq_none hrun hi
      rw [hk] at h
      cases h
    | some i =>
      rw [step_of_nextInstr hrun hi] at h
      exact ⟨hrun, i, rfl, exec_refused_iff.mp h⟩
  · rintro ⟨hrun, i, hi, hr⟩
    rw [step_of_nextInstr hrun hi, exec_refused_iff.mpr hr]

/-- A word that decodes is the instruction of the next step where it is the word at the pc (R122, R123). -/
theorem State.nextInstr_of_read {w : Word} (hr : s.mem.read 0#32 s.pc = .ok w) (hd : decode w = .ok i) :
    s.nextInstr = some i :=
  State.nextInstr_eq_some.mpr (State.fetchInstr_eq_ok.mpr ⟨w, hr, hd⟩)

/-- Where a fetch succeeds the pc is below the length of segment 0 (R71). -/
theorem State.pc_lt_of_nextInstr (hi : s.nextInstr = some i) : ∃ n, s.mem.len 0 = some n ∧ s.pc.toNat < n := by
  obtain ⟨w, hf, -⟩ := State.fetchInstr_eq_ok.mp (State.nextInstr_eq_some.mp hi)
  obtain ⟨g, hg, hlt, -⟩ := Memory.read_eq_ok.mp hf
  exact ⟨_, Memory.len_eq_some.mpr ⟨g, hg, rfl⟩, hlt⟩

theorem Memory.placeWord_read (m : Memory) (off w : Word) : (m.placeWord off.toNat w).read 0#32 off = .ok w := by
  refine Memory.read_eq_ok.mpr ⟨_, Assoc.get_put_same, ?_, ?_⟩
  · exact Nat.lt_of_lt_of_le (Nat.lt_succ_self _) (Nat.le_max_right _ _)
  · rw [Segment.setWord_word, if_pos rfl]

/-- In canonical memory every length is below the bound (R29). -/
theorem Memory.len_lt {m : Memory} {j n : Nat} (h : m.wf) (hl : m.len j = some n) : n < 2 ^ 32 := by
  obtain ⟨g, hg, rfl⟩ := Memory.len_eq_some.mp hl
  exact (Memory.wf_segment h hg).1

end Outcomes

end Sys2Proof.Machine

/-! PROOF. The statements on the step: what it runs (40_execution_loop.md R121 to R125), when it ends, faults or is
refused (60_exceptions.md R200, R205, R206), and where the pc goes. -/

namespace Sys2Proof.Machine

/-- Settles O7: the word at the pc is the next instruction's. -/
theorem stepRunsDecodedInstruction : Obligations.StepRunsDecodedInstruction :=
  fun _ _ _ hrun hr hd => step_of_nextInstr hrun (State.nextInstr_of_read hr hd)

/-- Settles O8: the placed word is what the fetch reads, and the status was set to Running. -/
theorem placedWordRunsNext : Obligations.PlacedWordRunsNext := by
  intro s nbits w i h
  have hd : decode (tableWord nbits w) = .ok i := by
    unfold decodeTableWord at h
    split at h
    · cases e : decode (tableWord nbits w) <;> simp_all [Except.toOption]
    · cases h
  exact step_of_nextInstr rfl (State.nextInstr_of_read (Memory.placeWord_read s.mem s.pc _) hd)

/-- Settles O10: `step` looks at the status first. -/
theorem noStepAfterTheEnd : Obligations.NoStepAfterTheEnd := by
  refine fun s => ⟨fun h => ?_, fun k h => ?_⟩
  · simp [step, State.stopped, h]
  · simp [step, State.stopped, h]

/-- Settles O11: a fetch that fails raises, an instruction never faults, and only the two named can be refused. -/
theorem runningMachineStepsOrIsExhausted : Obligations.RunningMachineStepsOrIsExhausted := by
  intro s hrun
  cases hi : s.nextInstr with
  | none =>
    obtain ⟨k, -, hk⟩ := step_of_nextInstr_eq_none hrun hi
    exact .inl ⟨_, hk⟩
  | some i =>
    rw [step_of_nextInstr hrun hi]
    cases he : exec i s with
    | next t => exact .inl ⟨t, rfl⟩
    | fault f => exact absurd he (exec_ne_fault i s f)
    | refused q =>
      have hr := exec_refused_iff.mp he
      refine .inr ⟨by rw [hr.resourceExhausted], ?_⟩
      cases hr with
      | mapSegment => exact ⟨_, _, .inl rfl⟩
      | loadProgram => exact ⟨_, _, .inr rfl⟩

/-- Settles O12: every faulting step is a `raise` (`step_faulted_iff`). -/
theorem faultingStepChangesOnlyStatus : Obligations.FaultingStepChangesOnlyStatus :=
  fun _ _ _ h hk => ((step_faulted_iff (running_of_step h)).mp ⟨h, hk⟩).1

/-- Settles O16: of the instructions that can fault, Output alone raises this fault. -/
theorem outputFaultExactlyAbove255 : Obligations.OutputFaultExactlyAbove255 := by
  intro s hrun
  simp only [step_raises_iff hrun, reduceCtorEq, false_and, or_false]
  constructor
  · rintro ⟨i, hi, hr⟩
    cases hr with
    | output h => exact ⟨_, hi, h⟩
  · rintro ⟨c, hi, h⟩
    exact ⟨_, hi, .output h⟩

/-- Settles O17: a completed instruction keeps the status unless it is Halt, and Halt never raises. -/
theorem onlyHaltEndsCleanly : Obligations.OnlyHaltEndsCleanly := by
  intro s t h
  rcases step_cases h with ⟨i, hi, hc⟩ | ⟨i, k, hi, hr, rfl⟩ | ⟨hi, k, rfl⟩
  · rcases hc.status with ⟨rfl, ht⟩ | ⟨hne, ht⟩
    · simp [ht, hi]
    · simp [ht, hi, hne, running_of_step h]
  · have hne : i ≠ .halt := by rintro rfl; cases hr
    simp [hi, hne]
  · simp [hi]

/-- Settles O18: the fetch bounds the pc by the length of segment 0, so pc + 1 fits 32 bits. -/
theorem pcAdvancesUnlessLoadProgram : Obligations.PcAdvancesUnlessLoadProgram := by
  intro s t ⟨hwf, _⟩ h ht
  obtain ⟨i, hi, hc⟩ := completes_of_running h ht
  rcases hc.pc with rfl | ⟨b, c, rfl, hpc⟩ | ⟨hne, hpc⟩
  · cases hc
    cases ht
  · exact .inl ⟨b, c, hi, hpc⟩
  · obtain ⟨n, hn, hlt⟩ := State.pc_lt_of_nextInstr hi
    have bound := Memory.len_lt hwf hn
    refine .inr ⟨fun b c e => hne b c (Option.some.inj (hi.symm.trans e)), ?_⟩
    rw [hpc]
    bv_omega

end Sys2Proof.Machine

/-! PROOF. What the operations of the segment indexer do to the words in use and to `nid` (20_memory.md R70,
10_state.md R31), and what a step does to the memory (20_memory.md R51). -/

namespace Sys2Proof.Machine

section Storage

variable {m m' : Memory} {id off v src n : Word} {cap : Option Nat} {s t : State}

/-! ### The words in use -/

theorem le_of_fits {c k : Nat} (h : fits (some c) k = true) : k ≤ c := by
  simpa [fits] using h

theorem Memory.write_words (hwf : m.wf) (h : m.write id off v = .ok m') : m'.words = m.words := by
  obtain ⟨g, hg, -, rfl⟩ := Memory.write_eq_ok.mp h
  have exchanged := Memory.words_put_old (g := g.setWord off.toNat v) (l := m.free) (k := m.nid) hwf.1 hg
  rw [Segment.setWord_len] at exchanged
  omega

theorem Memory.deallocate_words_le (h : m.deallocate id = .ok m') : m'.words ≤ m.words := by
  obtain ⟨-, -, rfl⟩ := Memory.deallocate_eq_ok.mp h
  exact (List.filter_sublist.map _).sum_le_sum fun _ _ => Nat.zero_le _

theorem Memory.allocate_fits {i : Nat} (h : m.allocate cap n = .ok (i, m')) : fits cap m'.words = true := by
  obtain ⟨_, _, -, hf, -⟩ := Memory.allocate_eq_ok.mp h
  exact hf

theorem Memory.duplicateIntoZero_fits (h : m.duplicateIntoZero cap src = .ok m') :
    m' = m ∨ fits cap m'.words = true := by
  obtain ⟨_, -, ⟨-, e⟩ | ⟨-, hf, -⟩⟩ := Memory.duplicateIntoZero_eq_ok.mp h
  · exact .inl e
  · exact .inr hf

/-- An allocation is refused exactly when no identifier is left or its words do not fit (R70). -/
theorem Memory.allocate_refused_iff (h : m.Inv) {q : Refusal} : m.allocate cap n = .error (.refused q) ↔
    q = .resourceExhausted ∧
      ((m.free = [] ∧ m.nid = 2 ^ 32) ∨ ∃ c, cap = some c ∧ c < m.words + n.toNat) := by
  obtain ⟨-, -, -, -, -, -, -, bound⟩ := id h
  have none_left : m.pick = none ↔ m.free = [] ∧ m.nid = 2 ^ 32 := by
    rw [Memory.pick_eq_none]
    exact and_congr_right fun _ => ⟨fun hn => Nat.le_antisymm bound hn, fun hn => hn.ge⟩
  rw [Memory.allocate_eq_error, Stop.refused.injEq, none_left]
  refine and_congr_right fun _ => ?_
  cases hp : m.pick with
  | none => simp [none_left.mp hp]
  | some p =>
    obtain ⟨i, l, k⟩ := p
    obtain ⟨fresh, -, -⟩ := Memory.pick_fresh h hp
    have used := Memory.words_put_new (g := Segment.zeros n.toNat) (l := l) (k := k) fresh
    simp [used, fits_eq_false, Nat.add_comm]

/-- A copy into segment 0 is refused exactly when it does not fit in the old segment's place (R70). -/
theorem Memory.duplicateIntoZero_refused_iff (hwf : m.wf) (h0 : m.mapped 0 = true) {q : Refusal} :
    m.duplicateIntoZero cap src = .error (.refused q) ↔ q = .resourceExhausted ∧ src ≠ 0#32 ∧
      ∃ c k old, cap = some c ∧ m.len src.toNat = some k ∧ m.len 0 = some old ∧ c + old < m.words + k := by
  obtain ⟨g0, hg0⟩ := Memory.mapped_iff.mp h0
  have exchanged (g : Segment) := Memory.words_put_old (g := g) (l := m.free) (k := m.nid) hwf.1 hg0
  simp only [Memory.duplicateIntoZero_eq_error, fits_eq_false, Memory.len_eq_some, reduceCtorEq, and_false,
    false_or, Stop.refused.injEq]
  constructor
  · rintro ⟨hs, hq, g, hg, c, hc, hlt⟩
    exact ⟨hq, hs, c, g.len, g0.len, hc, ⟨g, hg, rfl⟩, ⟨g0, hg0, rfl⟩, by have := exchanged g; omega⟩
  · rintro ⟨hq, hs, c, _, _, hc, ⟨g, hg, rfl⟩, ⟨g1, hg1, rfl⟩, hlt⟩
    cases hg0.symm.trans hg1
    exact ⟨hs, hq, g, hg, c, hc, by have := exchanged g; omega⟩

/-! ### The identifiers issued -/

theorem Memory.allocate_nid_le {i : Nat} (h : m.allocate cap n = .ok (i, m')) : m.nid ≤ m'.nid := by
  obtain ⟨_, _, hp, -, rfl⟩ := Memory.allocate_eq_ok.mp h
  rcases Memory.pick_eq_some.mp hp with ⟨-, rfl⟩ | ⟨-, -, -, -, rfl⟩
  · exact Nat.le_refl _
  · exact Nat.le_succ _

theorem Memory.deallocate_nid (h : m.deallocate id = .ok m') : m'.nid = m.nid := by
  obtain ⟨-, -, rfl⟩ := Memory.deallocate_eq_ok.mp h
  rfl

theorem Memory.deallocate_free (h : m.deallocate id = .ok m') : m'.free = m.free ++ [id.toNat] := by
  obtain ⟨-, -, rfl⟩ := Memory.deallocate_eq_ok.mp h
  rfl

theorem Memory.duplicateIntoZero_nid (h : m.duplicateIntoZero cap src = .ok m') : m'.nid = m.nid := by
  obtain ⟨_, -, ⟨-, rfl⟩ | ⟨-, -, rfl⟩⟩ := Memory.duplicateIntoZero_eq_ok.mp h <;> rfl

theorem Memory.duplicateIntoZero_free (h : m.duplicateIntoZero cap src = .ok m') : m'.free = m.free := by
  obtain ⟨_, -, ⟨-, rfl⟩ | ⟨-, -, rfl⟩⟩ := Memory.duplicateIntoZero_eq_ok.mp h <;> rfl

/-- The memory with segment 0 alone, nothing queued and one identifier issued meets the invariants (R32, R38). -/
theorem Memory.inv_of_segmentZero {g : Segment} (hg : g.wf) : (Memory.mk [(0, g)] [] 1).Inv := by
  refine ⟨⟨List.pairwise_singleton _ _, ?_⟩, rfl, nofun, List.nodup_nil, fun j hj => .inl ?_, ?_, nofun,
    Nat.one_le_two_pow⟩
  · simpa using hg
  · obtain rfl : j = 0 := Nat.lt_one_iff.mp hj
    rfl
  · simp

/-! ### The step -/

/-- The memory after a step is the old one, or what the operation of the instruction's row of R51 answered. -/
theorem step_mem (h : step s = .next t) : t.mem = s.mem ∨
    (∃ a b c, s.nextInstr = some (.segmentedStore a b c) ∧
      s.mem.write (s.reg a) (s.reg b) (s.reg c) = .ok t.mem) ∨
    (∃ b c id, s.nextInstr = some (.mapSegment b c) ∧
      s.mem.allocate s.capacity (s.reg c) = .ok (id, t.mem)) ∨
    (∃ c, s.nextInstr = some (.unmapSegment c) ∧ s.mem.deallocate (s.reg c) = .ok t.mem) ∨
    ∃ b c, s.nextInstr = some (.loadProgram b c) ∧
      s.mem.duplicateIntoZero s.capacity (s.reg b) = .ok t.mem := by
  rcases step_cases h with ⟨i, hi, hc⟩ | ⟨_, k, -, -, rfl⟩ | ⟨-, k, rfl⟩
  · rcases exec_mem (exec_of_completes hc) with e | ⟨a, b, c, rfl, hm⟩ | ⟨b, c, id, rfl, hm⟩ | ⟨c, rfl, hm⟩ |
      ⟨b, c, rfl, hm⟩
    · exact .inl e
    · exact .inr (.inl ⟨a, b, c, hi, hm⟩)
    · exact .inr (.inr (.inl ⟨b, c, id, hi, hm⟩))
    · exact .inr (.inr (.inr (.inl ⟨c, hi, hm⟩)))
    · exact .inr (.inr (.inr (.inr ⟨b, c, hi, hm⟩)))
  · exact .inl rfl
  · exact .inl rfl

theorem step_inv (hinv : s.Inv) (h : step s = .next t) : t.Inv := by
  rcases step_mem h with e | ⟨_, _, _, -, hm⟩ | ⟨_, _, _, -, hm⟩ | ⟨_, -, hm⟩ | ⟨_, _, -, hm⟩
  · rwa [State.Inv, e]
  · exact Memory.write_inv hinv hm
  · exact Memory.allocate_inv hinv hm
  · exact Memory.deallocate_inv hinv hm
  · exact Memory.duplicateIntoZero_inv hinv hm

/-- Identifiers once issued stay issued (R31). -/
theorem step_nid_le (h : step s = .next t) : s.mem.nid ≤ t.mem.nid := by
  rcases step_mem h with e | ⟨_, _, _, -, hm⟩ | ⟨_, _, _, -, hm⟩ | ⟨_, -, hm⟩ | ⟨_, _, -, hm⟩
  · rw [e]
  · rw [Memory.write_nid hm]
  · exact Memory.allocate_nid_le hm
  · rw [Memory.deallocate_nid hm]
  · rw [Memory.duplicateIntoZero_nid hm]

/-! ### The streams and the parameters of the run -/

theorem step_input (h : step s = .next t) : t.input = s.input := by
  rcases step_cases h with ⟨i, -, hc⟩ | ⟨_, k, -, -, rfl⟩ | ⟨-, k, rfl⟩
  · exact hc.input_eq
  · rfl
  · rfl

theorem step_capacity (h : step s = .next t) : t.capacity = s.capacity := by
  rcases step_cases h with ⟨i, -, hc⟩ | ⟨_, k, -, -, rfl⟩ | ⟨-, k, rfl⟩
  · exact hc.capacity
  · rfl
  · rfl

/-- The output after a step: as before, or with the byte of an Output that did not fault (R192). -/
theorem step_out (h : step s = .next t) :
    (t.out = s.out ∧ ∀ c, s.nextInstr = some (.output c) → 255 < (s.reg c).toNat) ∨
      ∃ c, s.nextInstr = some (.output c) ∧ (s.reg c).toNat ≤ 255 ∧
        t.out = s.out ++ [(s.reg c).setWidth 8] := by
  rcases step_cases h with ⟨i, hi, hc⟩ | ⟨i, k, hi, hr, rfl⟩ | ⟨hi, k, rfl⟩
  · rcases hc.out with ⟨hne, ho⟩ | ⟨c, rfl, hle, ho⟩
    · exact .inl ⟨ho, fun c e => absurd (Option.some.inj (hi.symm.trans e)) (hne c)⟩
    · exact .inr ⟨c, hi, hle, ho⟩
  · refine .inl ⟨rfl, fun c e => ?_⟩
    cases hi.symm.trans e
    cases hr with
    | output above => exact above
  · exact .inl ⟨rfl, fun c e => by simp [hi] at e⟩

/-- The input position after a step: one further for an Input, which never faults, else as before (R193). -/
theorem step_inpos (h : step s = .next t) :
    (∃ c, s.nextInstr = some (.input c) ∧ t.inpos = s.inpos + 1) ∨
      ((∀ c, s.nextInstr ≠ some (.input c)) ∧ t.inpos = s.inpos) := by
  rcases step_cases h with ⟨i, hi, hc⟩ | ⟨i, k, hi, hr, rfl⟩ | ⟨hi, k, rfl⟩
  · rcases hc.inpos with ⟨hne, hp⟩ | ⟨c, rfl, hp⟩
    · exact .inr ⟨fun c e => hne c (Option.some.inj (hi.symm.trans e)), hp⟩
    · exact .inl ⟨c, hi, hp⟩
  · refine .inr ⟨fun c e => ?_, rfl⟩
    cases hi.symm.trans e
    cases hr
  · exact .inr ⟨fun c e => by simp [hi] at e, rfl⟩

/-- What a state of a run keeps of an earlier one: the invariants, the identifiers issued, the bytes emitted, the
answers consumed and the parameters of the run. -/
def Continues (s t : State) : Prop :=
  t.Inv ∧ s.mem.nid ≤ t.mem.nid ∧ (∃ later, t.out = s.out ++ later) ∧ s.inpos ≤ t.inpos ∧
    t.input = s.input ∧ t.capacity = s.capacity

theorem Continues.refl (h : s.Inv) : Continues s s :=
  ⟨h, Nat.le_refl _, ⟨[], by simp⟩, Nat.le_refl _, rfl, rfl⟩

theorem Continues.step {u : State} (hc : Continues s t) (h : step t = .next u) : Continues s u := by
  obtain ⟨hinv, hnid, ⟨later, hout⟩, hpos, hin, hcap⟩ := hc
  refine ⟨step_inv hinv h, Nat.le_trans hnid (step_nid_le h), ?_, Nat.le_trans hpos ?_,
    (step_input h).trans hin, (step_capacity h).trans hcap⟩
  · rcases step_out h with ⟨ho, -⟩ | ⟨c, -, -, ho⟩
    · exact ⟨later, ho.trans hout⟩
    · exact ⟨later ++ [_], by rw [ho, hout, List.append_assoc]⟩
  · rcases step_inpos h with ⟨c, -, hp⟩ | ⟨-, hp⟩ <;> omega

end Storage

end Sys2Proof.Machine

/-! PROOF. The statements on what every step and every run keeps, on reset (10_state.md R32, R38; 40_execution_loop.md
R128) and on the capacity (20_memory.md R70). -/

namespace Sys2Proof.Machine

/-- Settles O19: each operation of the indexer keeps the invariants, and a step changes memory by these alone. -/
theorem stepKeepsMemoryInvariants : Obligations.StepKeepsMemoryInvariants :=
  fun _ _ => step_inv

/-- Settles O20: segment 0 is empty, hence canonical. -/
theorem resetMeetsMemoryInvariants : Obligations.ResetMeetsMemoryInvariants :=
  Memory.inv_of_segmentZero (Segment.zeros_wf (n := 0) (by decide))

/-- Settles O21: segment 0 is `Segment.ofWords` of PROG, which is canonical and holds PROG word for word. -/
theorem bootLeavesTheStatedState : Obligations.BootLeavesTheStatedState := by
  refine ⟨rfl, fun prog input cap => ⟨fun h => if_neg (Nat.not_lt.mpr h), fun h => ?_⟩⟩
  refine ⟨_, if_pos h, Memory.inv_of_segmentZero (Segment.ofWords_wf h), fun r => ?_, rfl, fun off => ?_,
    fun i hi => ?_, rfl, rfl, rfl, rfl, rfl, rfl, rfl⟩
  · simp [State.reg, State.reset]
  · split
    · next hlt => exact Memory.read_eq_ok.mpr ⟨_, rfl, hlt, Segment.ofWords_word hlt⟩
    · next hge => exact Memory.read_eq_error.mpr ⟨rfl, fun n hn => by cases hn; exact Nat.le_of_not_lt hge⟩
  · exact Memory.mapped_eq_false.mpr (if_neg hi)

/-- Settles O22: by induction over the run, each step carrying `Continues` on. -/
theorem runsKeepInvariantsAndHistory : Obligations.RunsKeepInvariantsAndHistory :=
  fun _ _ hinv hrun => hrun.keeps (Continues.refl hinv) fun _ _ => Continues.step

/-- Settles O23: the two operations that can add words check the capacity, the two others add none. -/
theorem stepsStayWithinCapacity : Obligations.StepsStayWithinCapacity := by
  intro s t cap ⟨hwf, _⟩ hcap hle h
  rcases step_mem h with e | ⟨_, _, _, -, hm⟩ | ⟨_, _, _, -, hm⟩ | ⟨_, -, hm⟩ | ⟨_, _, -, hm⟩
  · rwa [e]
  · rwa [Memory.write_words hwf hm]
  · exact le_of_fits (hcap ▸ Memory.allocate_fits hm)
  · exact Nat.le_trans (Memory.deallocate_words_le hm) hle
  · rcases Memory.duplicateIntoZero_fits hm with e | hf
    · rwa [e]
    · exact le_of_fits (hcap ▸ hf)

/-- Settles O24: the refusals of the execute step are those of the two operations (`exec_refused_iff`). -/
theorem refusedExactlyWhenExhausted : Obligations.RefusedExactlyWhenExhausted := by
  intro s hinv
  obtain ⟨hwf, zeroMapped, -⟩ := id hinv
  refine ⟨fun b c q => ?_, fun b c q => ?_, fun i q h => ?_⟩
  · rw [exec_refused_iff, ← Memory.allocate_refused_iff hinv]
    exact ⟨fun | .mapSegment h => h, .mapSegment⟩
  · rw [exec_refused_iff, ← Memory.duplicateIntoZero_refused_iff hwf zeroMapped]
    exact ⟨fun | .loadProgram h => h, .loadProgram⟩
  · cases exec_refused_iff.mp h with
    | mapSegment => exact ⟨_, _, .inl rfl⟩
    | loadProgram => exact ⟨_, _, .inr rfl⟩

end Sys2Proof.Machine

/-! PROOF. The queue in a row of allocations (20_memory.md R57), the contents after a write (R53), and that canonical
memories are determined by their contents (log 6). -/

namespace Sys2Proof.Machine

section Contents

variable {m m' : Memory} {id off v n : Word} {cap : Option Nat}

/-- While the queue lasts, allocations in a row take the identifiers from its head, in order (R57). -/
theorem Memory.allocateEach_of_queued (ns : List Word) (h : ns.length ≤ m.free.length) :
    ∃ m3, m.allocateEach ns = .ok (m.free.take ns.length, m3) ∧ m3.free = m.free.drop ns.length ∧
      m3.nid = m.nid := by
  induction ns generalizing m with
  | nil => exact ⟨m, by simp [Memory.allocateEach], by simp, rfl⟩
  | cons n ns ih =>
    cases hf : m.free with
    | nil => simp [hf] at h
    | cons i rest =>
      have head := Memory.allocate_of_queued n hf
      obtain ⟨m3, tail, hfree, hnid⟩ :=
        ih (m := ⟨Assoc.put i (Segment.zeros n.toNat) m.seg, rest, m.nid⟩) (by simpa [hf] using h)
      exact ⟨m3, by simp [Memory.allocateEach, head, tail, Except.map], by simpa using hfree, hnid⟩

theorem Segment.setWord_toWords {g : Segment} {j : Nat} : (g.setWord j v).toWords = g.toWords.set j v := by
  apply List.ext_getElem?
  intro k
  rw [Segment.toWords_getElem?, List.getElem?_set, Segment.toWords_getElem?, Segment.setWord_word,
    Segment.setWord_len, Segment.toWords_length]
  by_cases hk : k = j
  · simp [hk]
  · simp [hk, Ne.symm hk]

/-- MemWrite replaces one word of the segment's sequence and leaves every other segment (R53). -/
theorem Memory.write_contents (h : m.write id off v = .ok m') (j : Nat) :
    m'.contents j = if j = id.toNat then (m.contents j).map (·.set off.toNat v) else m.contents j := by
  split
  · next e =>
    obtain ⟨g, hg, -, rfl⟩ := Memory.write_eq_ok.mp h
    rw [Memory.contents_put, if_pos e, e, Memory.contents_eq_some.mpr ⟨g, hg, rfl⟩, Segment.setWord_toWords,
      Option.map_some]
  · next hj => exact Memory.write_contents_other h hj

/-- Canonical segments that hold the same sequence of words are the same data. -/
theorem Segment.eq_of_toWords {g g' : Segment} (h : g.wf) (h' : g'.wf) (hw : g.toWords = g'.toWords) :
    g = g' := by
  have hl : g.len = g'.len := by simpa using congrArg List.length hw
  refine Segment.ext_of_wf h h' hl fun j hj => ?_
  have word : g.toWords[j]? = g'.toWords[j]? := by rw [hw]
  rw [Segment.toWords_getElem?, Segment.toWords_getElem?, if_pos hj, if_pos (hl ▸ hj)] at word
  exact Option.some.inj word

/-- In canonical memories an identifier that holds the same words has the same segment. -/
theorem Memory.segment_eq_of_contents (h : m.wf) (h' : m'.wf) {j : Nat} (hc : m.contents j = m'.contents j) :
    m.segment j = m'.segment j := by
  unfold Memory.contents at hc
  cases hg : m.segment j with
  | none =>
    rw [hg] at hc
    exact (Option.map_eq_none_iff.mp hc.symm).symm
  | some g =>
    rw [hg] at hc
    obtain ⟨g', hg', hw⟩ := Option.map_eq_some_iff.mp hc.symm
    rw [hg', Segment.eq_of_toWords (Memory.wf_segment h hg) (Memory.wf_segment h' hg') hw.symm]

/-- Every word of a new segment reads 0 (R58). -/
theorem Memory.allocate_read (h : m.allocate cap n = .ok (id.toNat, m')) (ho : off.toNat < n.toNat) :
    m'.read id off = .ok 0#32 := by
  refine Memory.read_eq_ok_iff_contents.mpr ⟨_, (Memory.allocate_contents h _).trans (if_pos rfl), ?_⟩
  simp [ho]

end Contents

end Sys2Proof.Machine

/-! PROOF. The statements on the contents of memory: reuse (20_memory.md R57), zero fill (R58), refinement (R52 to
R56) and the canonical form (log 6). -/

namespace Sys2Proof.Machine

/-- Settles O30: both identifiers go to the tail of the queue, and the allocations take them from its head. -/
theorem reuseIsFirstInFirstOut : Obligations.ReuseIsFirstInFirstOut := by
  intro m m1 m2 a b ns h1 h2 hlen
  have hfree : m2.free = m.free ++ [a.toNat, b.toNat] := by
    rw [Memory.deallocate_free h2, Memory.deallocate_free h1, List.append_assoc]
    rfl
  obtain ⟨m3, hm3, hf, hn⟩ := Memory.allocateEach_of_queued (m := m2) ns (by simpa [hfree] using hlen)
  rw [hfree] at hm3 hf
  exact ⟨m3, hm3, hf, by rw [hn, Memory.deallocate_nid h2, Memory.deallocate_nid h1]⟩

/-- Settles O31: the new segment's words are zero, and a write elsewhere does not touch them. -/
theorem allocatedWordsReadZeroUntilWritten : Obligations.AllocatedWordsReadZeroUntilWritten := by
  intro m m' cap n id off _ ha ho
  have zero := Memory.allocate_read ha ho
  refine ⟨zero, fun id' off' v m'' hne hw => ?_⟩
  have other : ¬(id = id' ∧ off = off') := fun ⟨e, e'⟩ => hne ⟨e.symm, e'.symm⟩
  rw [Memory.write_read hw, if_neg other, zero]

/-- Settles O33: one law of the contents per operation. -/
theorem memoryRefinesWordSequences : Obligations.MemoryRefinesWordSequences :=
  fun _ _ => ⟨fun _ _ _ => Memory.read_eq_ok_iff_contents, fun _ _ _ _ => Memory.write_contents,
    fun _ _ _ => Memory.allocate_contents, fun _ _ => Memory.deallocate_contents,
    fun _ _ => Memory.duplicateIntoZero_contents⟩

/-- Settles O34: the tables agree at every identifier, and tables in order that agree are equal. -/
theorem canonicalMemoriesAreDeterminedByContents : Obligations.CanonicalMemoriesAreDeterminedByContents := by
  intro m m' hwf hwf' hc hfree hnid
  have hseg : m.seg = m'.seg := Assoc.ext_of_sorted hwf.1 hwf'.1 fun j =>
    Memory.segment_eq_of_contents hwf hwf' (hc j)
  cases m
  cases m'
  simp_all

end Sys2Proof.Machine

/-! PROOF. What one step leaves of the memory (20_memory.md R51), and how little an instruction depends on: the
registers of its row (10_state.md R23), not the output history (R36), of the oracle one answer
(40_execution_loop.md R128). -/

namespace Sys2Proof.Machine

section Frames

variable {m m' : Memory} {id : Word} {cap : Option Nat} {s s' t : State} {i : Instr} {k : FaultKind} {q : Refusal}

/-! ### What the operations leave of a mapped segment -/

/-- Allocate changes no segment that is mapped, for the identifier it selects is not (R54). -/
theorem Memory.allocate_contents_mapped {n : Word} {j j' : Nat} (hinv : m.Inv)
    (h : m.allocate cap n = .ok (j', m')) (hj : m.mapped j = true) : m'.contents j = m.contents j := by
  obtain ⟨_, _, hp, -, -⟩ := Memory.allocate_eq_ok.mp h
  obtain ⟨fresh, -, -⟩ := Memory.pick_fresh hinv hp
  have hne : j ≠ j' := by rintro rfl; simp [fresh] at hj
  rw [Memory.allocate_contents h, if_neg hne]

theorem Memory.duplicateIntoZero_zero (h : m.duplicateIntoZero cap 0#32 = .ok m') : m' = m := by
  obtain ⟨_, -, ⟨-, e⟩ | ⟨hne, -⟩⟩ := Memory.duplicateIntoZero_eq_ok.mp h
  · exact e
  · exact absurd rfl hne

theorem Memory.len_congr {j j' : Nat} (h : m'.contents j' = m.contents j) : m'.len j' = m.len j := by
  rw [Memory.len_eq_contents, h, Memory.len_eq_contents]

theorem Memory.mapped_of_len {j n : Nat} (h : m.len j = some n) : m.mapped j = true := by
  rw [Memory.mapped_eq_len, h]
  rfl

theorem Memory.mapped_of_read {off v : Word} (h : m.read id off = .ok v) : m.mapped id.toNat = true := by
  obtain ⟨g, hg, -⟩ := Memory.read_eq_ok.mp h
  exact Memory.mapped_iff.mpr ⟨g, hg⟩

/-- What a segment holds after a step that is no store: the same, unless the segment was unmapped or is segment 0 after
a copy into it. -/
theorem step_contents {j : Nat} (hinv : s.Inv) (h : step s = .next t) (hj : s.mem.mapped j = true) :
    t.mem.contents j = s.mem.contents j ∨
    (∃ a b c, s.nextInstr = some (.segmentedStore a b c) ∧
      s.mem.write (s.reg a) (s.reg b) (s.reg c) = .ok t.mem) ∨
    (∃ c, s.nextInstr = some (.unmapSegment c) ∧ (s.reg c).toNat = j ∧ j ≠ 0 ∧ t.mem.contents j = none) ∨
    (∃ b c, s.nextInstr = some (.loadProgram b c) ∧ j = 0 ∧ s.reg b ≠ 0#32 ∧
      t.mem.contents j = s.mem.contents (s.reg b).toNat) := by
  rcases step_mem h with e | hstore | ⟨b, c, j', -, hm⟩ | ⟨c, hi, hm⟩ | ⟨b, c, hi, hm⟩
  · exact .inl (by rw [e])
  · exact .inr (.inl hstore)
  · exact .inl (Memory.allocate_contents_mapped hinv hm hj)
  · have hc := Memory.deallocate_contents hm j
    obtain ⟨hne, -⟩ := Memory.deallocate_eq_ok.mp hm
    by_cases e : j = (s.reg c).toNat
    · refine .inr (.inr (.inl ⟨c, hi, e.symm, ?_, hc.trans (if_pos e)⟩))
      rw [e]
      exact BitVec.toNat_ne.mp hne
    · exact .inl (hc.trans (if_neg e))
  · have hc := Memory.duplicateIntoZero_contents hm j
    by_cases hb : s.reg b = 0#32
    · rw [hb] at hm
      exact .inl (by rw [Memory.duplicateIntoZero_zero hm])
    · by_cases e : j = 0
      · exact .inr (.inr (.inr ⟨b, c, hi, e, hb, hc.trans (if_pos e)⟩))
      · exact .inl (hc.trans (if_neg e))

/-! ### What an outcome depends on -/

/-- A fault depends on the registers the instruction reads and on the memory alone. -/
theorem Raises.congr (hr : ∀ r ∈ reads i s, s'.reg r = s.reg r) (hm : s'.mem = s.mem) (h : Raises s i k) :
    Raises s' i k := by
  cases h <;> simp only [reads, List.mem_cons, List.not_mem_nil, or_false, forall_eq_or_imp, forall_eq] at hr
  case segmentedLoad h =>
    obtain ⟨hb, hc⟩ := hr
    exact .segmentedLoad (by rwa [hm, hb, hc])
  case segmentedStore h =>
    obtain ⟨ha, hb, -⟩ := hr
    exact .segmentedStore (by rwa [hm, ha, hb])
  case loadProgram h =>
    obtain ⟨hb, -⟩ := hr
    exact .loadProgram (by rwa [hm, hb])
  case divide h =>
    obtain ⟨-, hc⟩ := hr
    exact .divide (by rwa [hc])
  case unmapSegment h => exact .unmapSegment (by rwa [hm, hr])
  case output h => exact .output (by rwa [hr])

/-- A refusal depends on the registers the instruction reads, the memory and the capacity alone. -/
theorem Refuses.congr (hr : ∀ r ∈ reads i s, s'.reg r = s.reg r) (hm : s'.mem = s.mem)
    (hcap : s'.capacity = s.capacity) (h : Refuses s i q) : Refuses s' i q := by
  cases h <;> simp only [reads, List.mem_cons, List.not_mem_nil, or_false, forall_eq_or_imp, forall_eq] at hr
  case mapSegment h => exact .mapSegment (by rwa [hm, hcap, hr])
  case loadProgram h =>
    obtain ⟨hb, -⟩ := hr
    exact .loadProgram (by rwa [hm, hcap, hb])

/-- An instruction that raises writes no register (R126). -/
theorem Raises.writes_eq_none (h : Raises s i k) : writes i s = none := by
  cases h with
  | segmentedLoad beyond =>
    have failed := Memory.read_eq_error.mpr ⟨rfl, beyond⟩
    simp [writes, failed, Except.toOption]
  | divide zero => exact if_pos zero
  | segmentedStore | loadProgram | unmapSegment | output => rfl

/-- A completed instruction changes no register but the one it writes (R23). -/
theorem Completes.reg_of_not_writes {r : Reg} (h : Completes s i t) (hr : writes i s ≠ some r) :
    t.reg r = s.reg r := by
  cases h
  case skip | segmentedStore | halt | unmapSegment | output | loadProgram => rfl
  case move holds => exact State.setReg_reg_other _ _ _ _ fun e => hr (by simp [writes, holds, e])
  case divide nonzero => exact State.setReg_reg_other _ _ _ _ fun e => hr (by simp [writes, nonzero, e])
  case segmentedLoad read =>
    exact State.setReg_reg_other _ _ _ _ fun e => hr (by simp [writes, read, Except.toOption, e])
  all_goals exact State.setReg_reg_other _ _ _ _ fun e => hr (by rw [writes, e])

/-- A value put into a register beforehand is lost where the register is then written, and else stays. -/
theorem State.advance_setReg_setReg (s : State) (r a : Reg) (v w : Word) :
    (if some a = some r then (s.setReg a w).advance else (s.setReg a w).advance.setReg r v) =
      ((s.setReg r v).setReg a w).advance := by
  by_cases h : a = r
  · subst h
    rw [if_pos rfl, State.setReg_setReg]
  · rw [if_neg (fun e => h (Option.some.inj e)), State.setReg_comm s a r w v (Ne.symm h)]
    rfl

theorem State.setReg_reg_of_not_mem {l : List Reg} {r : Reg} (hr : r ∉ l) (v : Word) :
    ∀ p ∈ l, (s.setReg r v).reg p = s.reg p :=
  fun _ hp => State.setReg_reg_other _ _ _ _ fun e => hr (e ▸ hp)

/-- An instruction completes alike whatever a register held that it does not read (R23). -/
theorem Completes.setReg {r : Reg} {v : Word} (h : Completes s i t) (hr : r ∉ reads i s) :
    Completes (s.setReg r v) i (if writes i s = some r then t else t.setReg r v) := by
  have agree := State.setReg_reg_of_not_mem (s := s) hr v
  cases h <;>
    simp only [reads, *, if_true, if_false, List.mem_cons, List.not_mem_nil, or_false, forall_eq_or_imp,
      forall_eq] at agree
  case move a b c holds =>
    obtain ⟨hb, hc⟩ := agree
    rw [writes, if_neg holds, State.advance_setReg_setReg, ← hb]
    exact .move (by rwa [hc])
  case skip a b c fails =>
    rw [writes, if_pos fails]
    exact .skip agree
  case segmentedLoad a b c w read =>
    obtain ⟨hb, hc⟩ := agree
    have hw : writes (.segmentedLoad a b c) s = some a := by simp [writes, read, Except.toOption]
    rw [hw, State.advance_setReg_setReg]
    exact .segmentedLoad (by rwa [hb, hc])
  case segmentedStore a b c m write =>
    obtain ⟨ha, hb, hc⟩ := agree
    exact .segmentedStore (by rwa [ha, hb, hc])
  case add a b c =>
    obtain ⟨hb, hc⟩ := agree
    rw [writes, State.advance_setReg_setReg, ← hb, ← hc]
    exact .add
  case multiply a b c =>
    obtain ⟨hb, hc⟩ := agree
    rw [writes, State.advance_setReg_setReg, ← hb, ← hc]
    exact .multiply
  case divide a b c nonzero =>
    obtain ⟨hb, hc⟩ := agree
    rw [writes, if_neg nonzero, State.advance_setReg_setReg, ← hb, ← hc]
    exact .divide (by rwa [hc])
  case nand a b c =>
    obtain ⟨hb, hc⟩ := agree
    rw [writes, State.advance_setReg_setReg, ← hb, ← hc]
    exact .nand
  case halt => exact .halt
  case mapSegment b c id m allocate =>
    rw [writes, State.advance_setReg_setReg]
    exact .mapSegment (by rwa [agree])
  case unmapSegment c m deallocate => exact .unmapSegment (by rwa [agree])
  case output c small =>
    simp only [writes, reduceCtorEq, if_false]
    rw [← agree]
    exact .output (by rwa [agree])
  case input c =>
    rw [writes, State.advance_setReg_setReg]
    exact .input
  case loadProgram b c m duplicate =>
    obtain ⟨hb, hc⟩ := agree
    simp only [writes, reduceCtorEq, if_false]
    rw [← hc]
    exact .loadProgram (by rwa [hb])
  case loadValue a imm =>
    rw [writes, State.advance_setReg_setReg]
    exact .loadValue

/-! ### The streams -/

/-- The state with another output history and another oracle. -/
def State.withStreams (s : State) (out : List Byte) (input : Oracle) : State :=
  { s with out := out, input := input }

variable {out : List Byte} {input : Oracle}

/-- An instruction completes alike after another output history, and under another oracle that gives an Input the same
answer (R36, R128). -/
theorem Completes.withStreams (h : Completes s i t)
    (ha : (∀ c, i ≠ .input c) ∨ s.answer = input.answer s.inpos) :
    ∃ emitted, t.out = s.out ++ emitted ∧
      Completes (s.withStreams out input) i (t.withStreams (out ++ emitted) input) := by
  have silent (hout : t.out = s.out) (hc : Completes (s.withStreams out input) i (t.withStreams out input)) :
      ∃ emitted, t.out = s.out ++ emitted ∧
        Completes (s.withStreams out input) i (t.withStreams (out ++ emitted) input) :=
    ⟨[], by rw [hout, List.append_nil], by rwa [List.append_nil]⟩
  cases h with
  | output small => exact ⟨_, rfl, .output small⟩
  | input =>
    have same := ha.resolve_left fun hne => hne _ rfl
    refine silent rfl ?_
    rw [same]
    exact .input
  | move holds => exact silent rfl (.move holds)
  | skip fails => exact silent rfl (.skip fails)
  | segmentedLoad read => exact silent rfl (.segmentedLoad read)
  | segmentedStore write => exact silent rfl (.segmentedStore write)
  | add => exact silent rfl .add
  | multiply => exact silent rfl .multiply
  | divide nonzero => exact silent rfl (.divide nonzero)
  | nand => exact silent rfl .nand
  | halt => exact silent rfl .halt
  | mapSegment allocate => exact silent rfl (.mapSegment allocate)
  | unmapSegment deallocate => exact silent rfl (.unmapSegment deallocate)
  | loadProgram duplicate => exact silent rfl (.loadProgram duplicate)
  | loadValue => exact silent rfl .loadValue

/-- A step does the same after another output history, and under another oracle that gives an Input the same answer. -/
theorem step_withStreams (h : step s = .next t)
    (ha : (∀ c, s.nextInstr ≠ some (.input c)) ∨ s.answer = input.answer s.inpos) :
    ∃ emitted, t.out = s.out ++ emitted ∧
      step (s.withStreams out input) = .next (t.withStreams (out ++ emitted) input) := by
  have hrun := running_of_step h
  have hrun' : (s.withStreams out input).status = .running := hrun
  cases hi : s.nextInstr with
  | none =>
    obtain ⟨k, he, hk⟩ := step_of_nextInstr_eq_none hrun hi
    have he' : (s.withStreams out input).fetchInstr = .error (.raised k) := he
    cases hk.symm.trans h
    exact ⟨[], (List.append_nil _).symm, by rw [step_running hrun', he', List.append_nil]; rfl⟩
  | some i =>
    have hi' : (s.withStreams out input).nextInstr = some i := hi
    rw [step_of_nextInstr hrun' hi']
    rcases exec_next_iff.mp (exec_of_step h hi) with hc | ⟨k, hr, rfl⟩
    · obtain ⟨emitted, hout, hc'⟩ := hc.withStreams (out := out) (input := input)
        (ha.imp_left fun hne c e => hne c (e ▸ hi))
      exact ⟨emitted, hout, exec_of_completes hc'⟩
    · refine ⟨[], (List.append_nil _).symm, ?_⟩
      have hr' : Raises (s.withStreams out input) i k := Raises.congr (s := s) (fun _ _ => rfl) rfl hr
      rw [exec_of_raises hr', List.append_nil]
      rfl

end Frames

end Sys2Proof.Machine

/-! PROOF. The whole-machine statements: what a step changes of the memory (20_memory.md section 5), of the registers
(10_state.md R23) and of the streams (46_io.md R192 to R194), and what it does not depend on (R36, R128). -/

namespace Sys2Proof.Machine

/-- Settles O35: by `step_contents` a segment changes under the named instructions alone, and a store changes the one
word it names. -/
theorem wordsChangeOnlyByNamedInstructions : Obligations.WordsChangeOnlyByNamedInstructions := by
  intro s t id off v hinv h hr
  rcases step_contents hinv h (Memory.mapped_of_read hr) with
    e | ⟨a, b, c, hi, hw⟩ | ⟨c, hi, hid, -⟩ | ⟨b, c, hi, hid, hb, -⟩
  · exact .inl ((Memory.read_congr e off).trans hr)
  · by_cases hat : id = s.reg a ∧ off = s.reg b
    · obtain ⟨rfl, rfl⟩ := hat
      exact .inr (.inl ⟨a, b, c, hi, rfl, rfl⟩)
    · exact .inl (by rw [Memory.write_read hw, if_neg hat, hr])
  · exact .inr (.inr (.inl ⟨c, hi, BitVec.toNat_inj.mp hid⟩))
  · exact .inr (.inr (.inr ⟨b, c, hi, BitVec.toNat_inj.mp hid, hb⟩))

/-- Settles O36: the length is the length of the contents, and a store keeps every length. -/
theorem segmentLengthsAreFixed : Obligations.SegmentLengthsAreFixed := by
  intro s t i n hinv h hl
  rcases step_contents hinv h (Memory.mapped_of_len hl) with
    e | ⟨a, b, c, -, hw⟩ | ⟨c, hi, hid, h0, e⟩ | ⟨b, c, hi, h0, hb, e⟩
  · exact .inl ((Memory.len_congr e).trans hl)
  · exact .inl ((Memory.write_len hw i).trans hl)
  · exact .inr (.inl ⟨c, hi, hid, h0, by rw [Memory.len_eq_contents, e]; rfl⟩)
  · exact .inr (.inr ⟨b, c, hi, h0, hb, Memory.len_congr e⟩)

/-- Settles O37: the store completed, so the word at the new pc reads as the value stored. -/
theorem storeToProgramIsFetchedNext : Obligations.StoreToProgramIsFetchedNext := by
  intro s t a b c hi ha hb h ht
  obtain ⟨i, hi', hc⟩ := completes_of_running h ht
  cases hi.symm.trans hi'
  cases hc with
  | @segmentedStore _ _ _ m write =>
    show m.read 0#32 (s.pc + 1) = _
    rw [Memory.write_read write, if_pos ⟨ha.symm, hb.symm⟩]

/-- Settles O38: completions, faults and refusals each depend on the registers read alone. -/
theorem registersAreReadAndWrittenAsTabulated : Obligations.RegistersAreReadAndWrittenAsTabulated := by
  refine ⟨fun i s t r h hr => ?_, fun i s r v hr => ⟨fun t h => ?_, fun q h => ?_⟩⟩
  · rcases exec_next_iff.mp h with hc | ⟨k, -, rfl⟩
    · exact hc.reg_of_not_writes hr
    · rfl
  · have agree := State.setReg_reg_of_not_mem (s := s) hr v
    rcases exec_next_iff.mp h with hc | ⟨k, hk, rfl⟩
    · exact exec_of_completes (hc.setReg hr)
    · rw [hk.writes_eq_none]
      exact exec_of_raises (hk.congr agree rfl)
  · have agree := State.setReg_reg_of_not_mem (s := s) hr v
    exact exec_refused_iff.mpr ((exec_refused_iff.mp h).congr agree rfl rfl)

/-- Settles O39: `step_out`, where the byte emitted is the register's value. -/
theorem outputOnlyAppendsItsByte : Obligations.OutputOnlyAppendsItsByte := by
  intro s t h
  refine (step_out h).imp_right fun ⟨c, hi, hle, ho⟩ => ⟨c, hi, _, ?_, ho⟩
  rw [BitVec.toNat_setWidth, Nat.mod_eq_of_lt (Nat.lt_succ_of_le hle)]

/-- Settles O40: an Input never faults, so it always consumes its answer. -/
theorem inputConsumesExactlyOneAnswer : Obligations.InputConsumesExactlyOneAnswer :=
  fun _ _ h => ⟨step_input h, step_capacity h, step_inpos h⟩

/-- Settles O41: the step runs alike over the other oracle, with the output history as it is. -/
theorem oracleActsOnlyThroughInput : Obligations.OracleActsOnlyThroughInput := by
  refine fun s other ha => ⟨fun t h => ?_, fun q h => ?_⟩
  · obtain ⟨emitted, hout, hstep⟩ := step_withStreams (out := s.out) h ha
    rw [← hout] at hstep
    exact hstep
  · obtain ⟨hrun, i, hi, hr⟩ := step_refused_iff.mp h
    exact step_refused_iff.mpr ⟨hrun, i, hi, Refuses.congr (s := s) (fun _ _ => rfl) rfl rfl hr⟩

/-- Settles O42: the step runs alike after the other history, with the oracle as it is. -/
theorem outputHistoryIsNeverRead : Obligations.OutputHistoryIsNeverRead := by
  intro s t other h
  obtain ⟨emitted, hout, hstep⟩ := step_withStreams (out := other) h (.inr rfl)
  have same : t.withStreams (other ++ emitted) s.input = { t with out := other ++ emitted } := by
    rw [← step_input h]
    rfl
  exact ⟨emitted, hout, same ▸ hstep⟩

end Sys2Proof.Machine

/-! PROOF. The frames of the instructions' next states, and when the operations with a limit answer (20_memory.md
R54, R56, R70). -/

namespace Sys2Proof.Machine

section Frames

variable {s : State} {m m' : Memory} {n src : Word} {cap : Option Nat} {i : Nat}

/-- What an instruction that writes one register and no more leaves as it was (R124). -/
theorem State.advance_setReg_frame (s : State) (a : Reg) (v : Word) :
    SameRegsBut a s (s.setReg a v).advance ∧ (s.setReg a v).advance.pc = s.pc + 1 ∧
      SameMemory s (s.setReg a v).advance ∧ SameStreams s (s.setReg a v).advance ∧
      SameRun s (s.setReg a v).advance :=
  ⟨fun _ hr => State.setReg_reg_other _ _ _ _ hr, rfl, ⟨fun _ _ => rfl, fun _ => rfl, rfl, rfl⟩, ⟨rfl, rfl⟩,
    rfl, rfl, rfl⟩

@[simp] theorem identWord_toNat (w : Word) : identWord w.toNat = w := by
  simp [identWord]

/-! ### Allocate within the limits -/

/-- Within R70's limits Allocate answers, and what it answers is an identifier above 0 of 32 bits. -/
theorem Memory.exists_allocate_within (hinv : m.Inv) (hroom : m.free ≠ [] ∨ m.nid < 2 ^ 32)
    (hfit : ∀ c, cap = some c → m.words + n.toNat ≤ c) :
    ∃ (w : Word) (m' : Memory), w ≠ 0#32 ∧ m.allocate cap n = .ok (w.toNat, m') := by
  cases ha : m.allocate cap n with
  | ok r =>
    obtain ⟨i, m'⟩ := r
    obtain ⟨_, _, hp, -⟩ := Memory.allocate_eq_ok.mp ha
    obtain ⟨-, h0, hlt⟩ := Memory.pick_fresh hinv hp
    have hi : (BitVec.ofNat 32 i).toNat = i := by rw [BitVec.toNat_ofNat, Nat.mod_eq_of_lt hlt]
    exact ⟨BitVec.ofNat 32 i, m', BitVec.toNat_ne.mpr (by rwa [hi]), by rw [hi]⟩
  | error e =>
    obtain ⟨rfl, -⟩ := Memory.allocate_eq_error.mp ha
    obtain ⟨-, ⟨hf, hn⟩ | ⟨c, hc, hlt⟩⟩ := (Memory.allocate_refused_iff hinv).mp ha
    · exact absurd hroom (by simp [hf, hn])
    · exact absurd (hfit c hc) (Nat.not_le.mpr hlt)

theorem Memory.pick_of_allocate (h : m.allocate cap n = .ok (i, m')) : m.pick = some (i, m'.free, m'.nid) := by
  obtain ⟨_, _, hp, -, rfl⟩ := Memory.allocate_eq_ok.mp h
  exact hp

/-- With identifiers queued, Allocate takes the one freed earliest (R54). -/
theorem Memory.allocate_of_free_cons {first : Nat} {rest : List Nat} (h : m.allocate cap n = .ok (i, m'))
    (hf : m.free = first :: rest) : i = first ∧ m'.free = rest ∧ m'.nid = m.nid := by
  rcases Memory.pick_eq_some.mp (Memory.pick_of_allocate h) with ⟨hq, hnid⟩ | ⟨hq, -⟩
  · obtain ⟨hfirst, hrest⟩ := List.cons.inj (hf.symm.trans hq)
    exact ⟨hfirst.symm, hrest.symm, hnid⟩
  · cases hf.symm.trans hq

/-- With none queued, Allocate takes one past the current maximum (R54). -/
theorem Memory.allocate_of_free_nil (h : m.allocate cap n = .ok (i, m')) (hf : m.free = []) :
    i = m.nid ∧ m'.free = [] ∧ m'.nid = m.nid + 1 := by
  rcases Memory.pick_eq_some.mp (Memory.pick_of_allocate h) with ⟨hq, -⟩ | ⟨-, -, hfresh⟩
  · cases hf.symm.trans hq
  · exact hfresh

/-! ### DuplicateIntoZero within the limits -/

theorem Memory.exists_duplicateIntoZero {k old : Nat} (hwf : m.wf) (hk : m.len src.toNat = some k)
    (hold : m.len 0 = some old)
    (hfit : src ≠ 0#32 → ∀ c, cap = some c → m.words + k ≤ c + old) :
    ∃ m', m.duplicateIntoZero cap src = .ok m' := by
  cases hd : m.duplicateIntoZero cap src with
  | ok m' => exact ⟨m', rfl⟩
  | error e =>
    rcases Memory.duplicateIntoZero_eq_error.mp hd with ⟨hm, -⟩ | ⟨-, rfl, -⟩
    · rw [Memory.mapped_of_len hk] at hm
      cases hm
    · obtain ⟨-, hs, c, k', old', hc, hk', hold', hlt⟩ :=
        (Memory.duplicateIntoZero_refused_iff hwf (Memory.mapped_of_len hold)).mp hd
      cases hk.symm.trans hk'
      cases hold.symm.trans hold'
      exact absurd (hfit hs c hc) (Nat.not_le.mpr hlt)

end Frames

end Sys2Proof.Machine

/-! PROOF. The rule of each instruction: when it completes, its result and its frame, and its fault
(41_move.md to 46_io.md). -/

namespace Sys2Proof.Machine

/-- Settles O43: the condition decides between a write of x[B] and none. -/
theorem conditionalMoveRule : Obligations.ConditionalMoveRule := by
  intro a b c s
  by_cases h : s.reg c = 0#32
  · refine ⟨_, exec_of_completes (.skip h), fun hne => absurd h hne, fun _ => rfl, ?_⟩
    simp [SameRegsBut, SameMemory, SameStreams, SameRun]
  · exact ⟨_, exec_of_completes (.move h), fun _ => State.setReg_reg_same .., fun h0 => absurd h0 h,
      State.advance_setReg_frame ..⟩

/-- Settles O44: a zero-extended value keeps its number, which 25 bits bound. -/
theorem loadValueRule : Obligations.LoadValueRule := by
  intro a2 imm s
  have value : (immWord imm).toNat = imm.toNat := by
    have := imm.isLt
    simp [immWord]
    omega
  refine ⟨_, exec_of_completes .loadValue, ?_, ?_, State.advance_setReg_frame ..⟩
  · simpa using value
  · have := imm.isLt
    simp [value]
    omega

/-- Settles O45: addition of words is addition modulo 2^32. -/
theorem addRule : Obligations.AddRule :=
  fun _ _ _ _ => ⟨_, exec_of_completes .add, by simp [BitVec.toNat_add], State.advance_setReg_frame ..⟩

/-- Settles O46: multiplication of words is multiplication modulo 2^32. -/
theorem multiplyRule : Obligations.MultiplyRule :=
  fun _ _ _ _ => ⟨_, exec_of_completes .multiply, by simp [BitVec.toNat_mul], State.advance_setReg_frame ..⟩

/-- Settles O47: the unsigned quotient is the natural quotient, which the two bounds characterise. -/
theorem divideRule : Obligations.DivideRule := by
  refine fun a b c s => ⟨fun h => ?_, fun h => exec_of_raises (.divide h)⟩
  have positive : 0 < (s.reg c).toNat := Nat.pos_of_ne_zero (BitVec.toNat_ne.mp h)
  have quotient : ((s.setReg a (s.reg b / s.reg c)).advance.reg a).toNat =
      (s.reg b).toNat / (s.reg c).toNat := by simp
  refine ⟨_, exec_of_completes (.divide h), ?_, ?_, State.advance_setReg_frame ..⟩
  · rw [quotient]
    exact Nat.div_mul_le_self _ _
  · rw [quotient]
    exact (Nat.div_lt_iff_lt_mul positive).mp (Nat.lt_succ_self _)

/-- Settles O48: the complement of the conjunction, bit by bit. -/
theorem nandRule : Obligations.NandRule := by
  refine fun a b c s => ⟨_, exec_of_completes .nand, fun i hi => ?_, State.advance_setReg_frame ..⟩
  simp [hi]

/-- Settles O49: a read in bounds answers a word, which is written; out of bounds it raises. -/
theorem segmentedLoadRule : Obligations.SegmentedLoadRule := by
  refine fun a b c s => ⟨fun n hn hlt => ?_, fun h => exec_of_raises (.segmentedLoad h)⟩
  obtain ⟨w, hw⟩ := Memory.exists_read_of_lt_len hn hlt
  refine ⟨_, exec_of_completes (.segmentedLoad hw), ?_, State.advance_setReg_frame ..⟩
  simpa using hw

/-- Settles O50: a write in bounds answers a memory that differs in that word alone (`Memory.write_read`). -/
theorem segmentedStoreRule : Obligations.SegmentedStoreRule := by
  refine fun a b c s => ⟨fun n hn hlt => ?_, fun h => exec_of_raises (.segmentedStore h)⟩
  obtain ⟨w, hw⟩ := Memory.exists_read_of_lt_len hn hlt
  obtain ⟨m, hm⟩ := Memory.exists_write_of_read hw (s.reg c)
  refine ⟨_, exec_of_completes (.segmentedStore hm), (Memory.write_read hm _ _).trans (if_pos ⟨rfl, rfl⟩),
    fun id off hne => (Memory.write_read hm id off).trans (if_neg hne), Memory.write_len hm,
    Memory.write_free hm, Memory.write_nid hm, ?_⟩
  simp [SameRegs, SameStreams, SameRun]

/-- Settles O51: only the status is set. -/
theorem haltRule : Obligations.HaltRule := by
  refine fun s => ⟨_, exec_of_completes .halt, ?_⟩
  simp [SameRegs, SameMemory, SameStreams]

/-- Settles O52: within the limits Allocate answers, the identifier is the one the policy selects, and its segment is
new. -/
theorem mapSegmentRule : Obligations.MapSegmentRule := by
  intro b c s hinv hroom hfit
  obtain ⟨w, m, hw0, ha⟩ := Memory.exists_allocate_within hinv hroom hfit
  have hc := Memory.allocate_contents ha
  have hreg : (((s.setMem m).setReg b (identWord w.toNat)).advance).reg b = w := by simp
  refine ⟨_, exec_of_completes (.mapSegment ha), ?_⟩
  rw [hreg]
  refine ⟨hw0, fun _ _ => Memory.allocate_of_free_cons ha, Memory.allocate_of_free_nil ha, ?_,
    fun off => Memory.allocate_read ha, fun id off hne => ?_, fun i hne => ?_, fun r hr => ?_, rfl, ⟨rfl, rfl⟩,
    rfl, rfl, rfl⟩
  · show m.len w.toNat = _
    rw [Memory.len_eq_contents, hc, if_pos rfl]
    simp
  · exact Memory.read_congr ((hc _).trans (if_neg (BitVec.toNat_ne.mp hne))) off
  · exact Memory.len_congr ((hc i).trans (if_neg hne))
  · exact State.setReg_reg_other _ _ _ _ hr

/-- Settles O53: Deallocate answers for a mapped identifier above 0, and discards that one segment. -/
theorem unmapSegmentRule : Obligations.UnmapSegmentRule := by
  refine fun c s => ⟨fun h0 hm => ?_, fun h => exec_of_raises (.unmapSegment h)⟩
  have hd := Memory.deallocate_eq_ok.mpr ⟨h0, hm, rfl⟩
  have hc := Memory.deallocate_contents hd
  have gone := (hc (s.reg c).toNat).trans (if_pos rfl)
  refine ⟨_, exec_of_completes (.unmapSegment hd), ?_, rfl, rfl, fun off => ?_, fun id off hne => ?_,
    fun i hne => ?_, ?_⟩
  · exact Memory.mapped_del.trans (if_pos rfl)
  · exact Memory.read_eq_error_iff_contents.mpr ⟨rfl, fun ws hws => nomatch gone.symm.trans hws⟩
  · exact Memory.read_congr ((hc _).trans (if_neg (BitVec.toNat_ne.mp hne))) off
  · exact Memory.len_congr ((hc i).trans (if_neg hne))
  · simp [SameRegs, SameStreams, SameRun]

/-- Settles O54: a value of 0..255 is its low byte. -/
theorem outputRule : Obligations.OutputRule := by
  refine fun c s => ⟨fun h => ?_, fun h => exec_of_raises (.output h)⟩
  refine ⟨_, exec_of_completes (.output h), ⟨_, ?_, rfl⟩, rfl, ?_⟩
  · rw [BitVec.toNat_setWidth, Nat.mod_eq_of_lt (Nat.lt_succ_of_le h)]
  · simp [SameRegs, SameMemory, SameRun]

/-- Settles O55: the register takes the word of the answer at the input position. -/
theorem inputRule : Obligations.InputRule := by
  intro c s
  have hreg : (s.consume.setReg c (answerWord s.answer)).advance.reg c =
      answerWord (s.input.answer s.inpos) := by simp [State.answer]
  refine ⟨_, exec_of_completes .input, fun byte hb => ?_, fun he => ?_, rfl, rfl, fun r hr => ?_, rfl, ?_⟩
  · have := byte.isLt
    rw [hreg, hb]
    simp [answerWord]
    omega
  · rw [hreg, he, answerWord]
  · exact State.setReg_reg_other _ _ _ _ hr
  · simp [SameMemory, SameRun]

/-- Settles O56: within the capacity DuplicateIntoZero answers, and segment 0 alone holds other words afterwards. -/
theorem loadProgramRule : Obligations.LoadProgramRule := by
  refine fun b c s ⟨hwf, _⟩ => ⟨fun n old hn hold hfit => ?_, fun h => exec_of_raises (.loadProgram h)⟩
  obtain ⟨m, hd⟩ := Memory.exists_duplicateIntoZero hwf hn hold hfit
  have hc := Memory.duplicateIntoZero_contents hd
  have copied := (hc 0).trans (if_pos rfl)
  refine ⟨_, exec_of_completes (.loadProgram hd), rfl, Memory.read_congr copied,
    (Memory.len_congr copied).trans hn, fun id off hne => ?_, fun i hne => ?_, Memory.duplicateIntoZero_free hd,
    Memory.duplicateIntoZero_nid hd, ?_⟩
  · exact Memory.read_congr ((hc _).trans (if_neg (BitVec.toNat_ne.mp hne))) off
  · exact Memory.len_congr ((hc i).trans (if_neg hne))
  · simp [SameRegs, SameStreams, SameRun]

/-- Settles O57: listed answers come first, and the rest answers from there on; a sequence that is constant from `len`
on is its first `len` answers, listed, and that constant. -/
theorem inputOraclesCoverAnswerSequences : Obligations.InputOraclesCoverAnswerSequences := by
  refine ⟨fun bytes n => ?_, fun f len a hf => ⟨⟨(List.range len).map f, .always a⟩, fun n => ?_⟩⟩
  · cases h : bytes[n]? <;> simp [Oracle.answer, Oracle.finite, h]
  · by_cases h : n < len
    · rw [Oracle.answer_of_lt (by simpa using h)]
      simp
    · rw [Oracle.answer_of_le (by simpa using h), Rest.answer_always, hf n (Nat.le_of_not_lt h)]

end Sys2Proof.Machine
